-- ==== Sys2Proof/Word.lean ====
section
/-! DEFINITION. The word types of DCF77TX: what moves on the command port and the register read port
(00_scope.md rule R8: bit 0 is the least significant bit). -/

namespace Sys2Proof

/-- A command word CMD[63:0], and the width of FRAME, POS and FCMD (rules R70, R20). -/
abbrev Word64 := BitVec 64

/-- The width of STATUS, RESULT, a sample rate and a sample code (rules R20, R26, R29). -/
abbrev Word32 := BitVec 32

/-- The stored data bits of a minute frame, position k at bit k (rule R24). -/
abbrev FrameData := BitVec 59

end Sys2Proof
end

