-- ==== Sys2Proof/Syntax.lean ====
section
/-! DEFINITION. The eight commands of DCF77TX with their operand fields, one constructor per row of
spec/opcode_table.json (30_encoding.md rules R71 to R78). -/

namespace Sys2Proof

/-- The operands of ENCODE: a civil time, each field a plain unsigned binary integer of the width the
command word gives it (rules R12, R73). A field may hold more than its legal range. -/
structure CivilTime where
  min  : BitVec 6
  hour : BitVec 5
  day  : BitVec 5
  /-- 0 = Sunday .. 6 = Saturday. -/
  wday : BitVec 3
  mon  : BitVec 4
  /-- Year within century. -/
  year : BitVec 7
  /-- 1 = daylight saving active. -/
  dst  : BitVec 1
  deriving DecidableEq, Repr

/-- The commands (rule R71). Every operand is an immediate (rule R79). -/
inductive Instr where
  /-- Do nothing (rule R211). -/
  | nop
  /-- Encode a civil time into FRAME (rule R110). -/
  | encode (t : CivilTime)
  /-- The even-parity bit of string positions 0..len-1 of `data` into RESULT (rule R145). -/
  | parity (len : BitVec 6) (data : BitVec 48)
  /-- One value as a `w`-bit BCD field into RESULT (rule R120). -/
  | bcd (w : BitVec 4) (val : BitVec 8)
  /-- Queue one second of one symbol; `sym` is 0 = `'0'`, 1 = `'1'`, 2 = `'-'` (rule R170). -/
  | syns (sym : BitVec 2) (sr : Word32)
  /-- Queue the minute of FRAME from position `start` on (rule R171). -/
  | synm (start : BitVec 6) (sr : Word32)
  /-- Empty both slots (rule R173). -/
  | abort
  /-- Load FRAME with 59 data bits (rule R125). -/
  | ldfr (fr : FrameData)
  deriving DecidableEq, Repr

end Sys2Proof
end

