-- ==== Sys2Proof/WellFormed.lean ====
section
/-! DEFINITION. Which terms of `Instr` are commands of the block. The widths of the fields are in their
types, so one check is left: SYNS has no symbol 3 (30_encoding.md rules R76, R80 (c)). A value outside an
operand's legal range is not an illegal encoding (rule R80): it is well formed, and it faults when issued. -/

namespace Sys2Proof

/-- SYNS's SYM names a symbol (rule R76). -/
abbrev symWellFormed (sym : BitVec 2) : Prop := sym ≠ 3

/-- The commands some command word encodes (rules R80, R81), as a check. -/
def Instr.wellFormed : Instr → Bool
  | .nop => true
  | .encode _ => true
  | .parity _ _ => true
  | .bcd _ _ => true
  | .syns sym _ => decide (symWellFormed sym)
  | .synm _ _ => true
  | .abort => true
  | .ldfr _ => true

end Sys2Proof
end

