-- ==== Sys2Proof/Decode.lean ====
section
/-! DEFINITION. Command words to commands and back (30_encoding.md rules R70 to R81), and the rows of
spec/opcode_table.json as data. -/

namespace Sys2Proof

/-- `width` bits of a command word from bit `lo` up: CMD[lo+width-1:lo], read as an unsigned integer
(rules R8, R79). -/
def field (cmd : Word64) (lo width : Nat) : BitVec width := cmd.extractLsb' lo width

/-- The operands of ENCODE in format E (rule R73). -/
def decodeTime (cmd : Word64) : CivilTime where
  min  := field cmd 4 6
  hour := field cmd 10 5
  day  := field cmd 15 5
  wday := field cmd 20 3
  mon  := field cmd 23 4
  year := field cmd 27 7
  dst  := field cmd 34 1

/-- The command a word stands for; `none` is ILLEGAL_CMD: a reserved opcode, a reserved bit that is not
zero, or SYNS with SYM = 3 (rules R80, R81). -/
def decode (cmd : Word64) : Option Instr :=
  match (field cmd 0 4).toNat with
  | 0x0 => if field cmd 4 60 = 0 then some .nop else none
  | 0x1 => if field cmd 35 29 = 0 then some (.encode (decodeTime cmd)) else none
  | 0x2 => if field cmd 10 6 = 0 then some (.parity (field cmd 4 6) (field cmd 16 48)) else none
  | 0x3 => if field cmd 16 48 = 0 then some (.bcd (field cmd 4 4) (field cmd 8 8)) else none
  | 0x4 =>
    if field cmd 6 26 = 0 ∧ symWellFormed (field cmd 4 2) then
      some (.syns (field cmd 4 2) (field cmd 32 32))
    else none
  | 0x5 => if field cmd 10 22 = 0 then some (.synm (field cmd 4 6) (field cmd 32 32)) else none
  | 0x6 => if field cmd 4 60 = 0 then some .abort else none
  | 0x7 => if field cmd 63 1 = 0 then some (.ldfr (field cmd 4 59)) else none
  | _ => none

/-- The word of a command, from the formats of rules R72 to R78: bit 63 on the left, reserved bits 0. -/
def encode : Instr → Word64
  | .nop => 0#60 ++ 0x0#4
  | .encode t => 0#29 ++ t.dst ++ t.year ++ t.mon ++ t.wday ++ t.day ++ t.hour ++ t.min ++ 0x1#4
  | .parity len data => data ++ 0#6 ++ len ++ 0x2#4
  | .bcd w val => 0#48 ++ val ++ w ++ 0x3#4
  | .syns sym sr => sr ++ 0#26 ++ sym ++ 0x4#4
  | .synm start sr => sr ++ 0#22 ++ start ++ 0x5#4
  | .abort => 0#60 ++ 0x6#4
  | .ldfr fr => 0#1 ++ fr ++ 0x7#4

/-- A row of the opcode table: a word selects it iff `(word AND mask) = pattern` (rule R81). -/
structure OpcodeRow where
  mnemonic : String
  pattern  : Word64
  mask     : Word64
  deriving DecidableEq, Repr

def OpcodeRow.selects (r : OpcodeRow) (cmd : Word64) : Prop := cmd &&& r.mask = r.pattern

/-- The rows of spec/opcode_table.json, in its order. -/
def opcodeTable : List OpcodeRow :=
  [ ⟨"NOP",    0x0000000000000000, 0xFFFFFFFFFFFFFFFF⟩,
    ⟨"ENCODE", 0x0000000000000001, 0xFFFFFFF80000000F⟩,
    ⟨"PARITY", 0x0000000000000002, 0x000000000000FC0F⟩,
    ⟨"BCD",    0x0000000000000003, 0xFFFFFFFFFFFF000F⟩,
    ⟨"SYNS",   0x0000000000000004, 0x00000000FFFFFFCF⟩,
    ⟨"SYNM",   0x0000000000000005, 0x00000000FFFFFC0F⟩,
    ⟨"ABORT",  0x0000000000000006, 0xFFFFFFFFFFFFFFFF⟩,
    ⟨"LDFR",   0x0000000000000007, 0x800000000000000F⟩ ]

/-- The mnemonic of a command's row. -/
def Instr.mnemonic : Instr → String
  | .nop => "NOP"
  | .encode _ => "ENCODE"
  | .parity _ _ => "PARITY"
  | .bcd _ _ => "BCD"
  | .syns _ _ => "SYNS"
  | .synm _ _ => "SYNM"
  | .abort => "ABORT"
  | .ldfr _ => "LDFR"

/-- The 64-bit word whose low `nbits` bits are `w`'s and whose other bits are 0. -/
def tableWord (nbits w : Nat) : Word64 := BitVec.ofNat 64 (w % 2 ^ nbits)

/-- What the decoder reads from an instruction numbered as spec/opcode_table.json numbers it. A command
is one 64-bit word taken whole (rules R54, R70), so there is no byte layout in between. -/
def decodeTableWord (nbits w : Nat) : Option Instr := decode (tableWord nbits w)

end Sys2Proof
end

