-- ==== Sys2Proof/Config.lean ====
section
/-! DEFINITION. What an implementation of DCF77TX fixes (00_scope.md rule R5) and the free values the spec
leaves open. QSIN, the remaining parameter of rule R5, is computed in Machine/Tone.lean. -/

namespace Sys2Proof

/-- The configuration a claim must stay generic in. It is no machine state: nothing writes it and reset
keeps it (rule R260). A state carries one (assumption 7), so a claim about every state is a claim about
every PREAMBLE. -/
structure Config where
  /-- `PREAMBLE`, frame positions 0..16, bit k at position k (rules R5, R105). -/
  preamble : BitVec 17
  deriving DecidableEq, Repr

/-- The default of rule R5 and decision D7: seventeen `'0'` symbols. -/
def Config.default : Config := { preamble := 0 }

/-- `CARRIER_HZ`, fixed (rule R5; D6: a model does not quantify over other carriers). -/
def Config.carrierHz : Nat := 15500

/-- `PARITY_MAX_LEN` (rule R5, D12). -/
def Config.parityMaxLen : Nat := 48

/-- `BCD_MAX_W` (rule R5, D11). -/
def Config.bcdMaxWidth : Nat := 8

/-- The order in which a platform's byte bus carries a 64-bit word: the open parameter `BUS_BYTE_ORDER`
(rule R52, D32). It is an argument wherever it is used (Machine/Bus.lean); no claim fixes it.
DESIGN CHOICE (assumption 16): R52 and D32 list no values for the parameter. The model admits these two and
leaves out every other order of the eight bytes (mixed orders). -/
inductive ByteOrder where
  | lowByteFirst
  | highByteFirst
  deriving DecidableEq, Repr

/-- FREE VALUE (assumption 5): what a read of RESULT answers while RESULT_VALID = 0 (rules R23, R213),
for each value of the state's `epoch`. -/
opaque Config.unwrittenResult : Nat → Word32

/-- FREE VALUE (assumption 5): what a read of FRAME answers while FRAME_VALID = 0 (rules R24, R213). -/
opaque Config.unwrittenFrame : Nat → Word64

/-- FREE VALUE (assumption 6): what a read of an unimplemented register number answers (rules R20, R213),
for the number read and each value of the state's `epoch` and `reads`. -/
opaque Config.unimplementedRead : Nat → Nat → Nat → Word64

end Sys2Proof
end

