-- ==== Sys2Proof/Machine/State.lean ====
section
/-! DEFINITION. The state of DCF77TX (10_state.md rules R20 to R31), what a step can stop with, and reset. -/

namespace Sys2Proof.Machine

/-- A symbol of a minute frame: `'0'`, `'1'` or the terminator `'-'` (rule R9). -/
inductive Symbol where
  | zero
  | one
  | term
  deriving DecidableEq, Repr

/-- The fault causes; codes 6..15 are never written (60_exceptions.md rule R230). -/
inductive Cause where
  | none
  | illegalCmd
  | illegalOperand
  | range
  | noFrame
  | overrun
  deriving DecidableEq, Repr

/-- What a synthesis slot holds (rule R26): the symbols to play, the frame position of the first, and the
sample rate. -/
structure Slot where
  syms : List Symbol
  base : BitVec 6
  sr   : Word32
  deriving DecidableEq, Repr

/-- What CUR holds: a slot and its position, the offset PS into SYMS and the sample index PI in the
current second (rule R26). -/
structure Playing where
  slot : Slot
  ps   : Nat
  pi   : Nat
  deriving DecidableEq, Repr

/-- A sample of OUT (rule R29): the quantized amplitude code, signed in two's complement (rule R8), and
the sample rate of the slot that produced it. -/
structure Sample where
  q  : Word32
  sr : Word32
  deriving DecidableEq, Repr

/-- What a host step gives back (43_control.md rule R210): a register of 32 or 64 bits, or a sample. -/
inductive Reply where
  | word32 (v : Word32)
  | word64 (v : Word64)
  | sample (x : Sample)
  deriving DecidableEq, Repr

/-- One turn of an agent (00_scope.md rule R4): an action of HOST, of the table of 43_control.md
rule R210, or a turn of SYN. -/
inductive Turn where
  | issue (cmd : Word64)
  | read (n : Nat)
  | reset
  | consume
  | syn
  deriving DecidableEq, Repr

/-- The state. STATUS's CUR_BUSY and NEXT_FULL, POS and PHASE are views (rules R22, R27, R28), not fields. -/
structure State where
  /-- STATUS.FAULT (rule R22). -/
  fault : Bool
  /-- STATUS.CAUSE (rule R22). -/
  cause : Cause
  /-- STATUS.RESULT_VALID (rule R22). -/
  resultValid : Bool
  /-- STATUS.FRAME_VALID (rule R22). -/
  frameValid : Bool
  /-- RESULT (rule R23). -/
  result : Word32
  /-- FRAME[58:0]; the other five bits are no storage (rule R24). -/
  frame : FrameData
  /-- FCMD (rule R25). -/
  fcmd : Word64
  /-- Slot CUR (rule R26). -/
  cur : Option Playing
  /-- Slot NEXT (rule R26). -/
  next : Option Slot
  /-- OUT, oldest sample first (rule R29). -/
  out : List Sample
  /-- How many samples of OUT the host has consumed (rules R29, R210; assumption 12). -/
  consumed : Nat
  /-- What the host got back last (rule R210). The model's own field (assumption 13). -/
  reply : Option Reply
  /-- The turns to come, next one first: any list is a run (20_memory.md rule R56). The model's own field
  (assumption 1). -/
  schedule : List Turn
  /-- The configuration (rule R5); no step changes it (assumption 7). -/
  cfg : Config
  /-- Feeds the free values of reads of an unwritten RESULT or FRAME. The model's own field (assumption 5). -/
  epoch : Nat
  /-- Feeds the free values of reads of unimplemented register numbers. The model's own field
  (assumption 6). -/
  reads : Nat
  deriving DecidableEq, Repr

/-- What stops the model. The faults of the spec are NO stops: their entry is a next state (rule R235). -/
inductive Fault where
  /-- Raised by a turn of SYN whose CUR breaks rule R26 (PS past the last symbol, or PI past the sample
  rate), to which the spec gives no sample. No run reaches such a state. Safe (assumption 10). -/
  | slotCorrupt
  deriving DecidableEq, Repr

/-- Why the model gives an instruction no meaning. -/
inductive Refusal where
  /-- Raised by an arm of `exec` that has no meaning yet. Safe. No arm does. -/
  | notModelled (mnemonic : String)
  deriving DecidableEq, Repr

/-- The outcome of a step of this machine. -/
abbrev Outcome := Host.Outcome State Fault Refusal

/-- The state right after reset (rules R31, R260). RESULT and FRAME are unwritten: their hidden storage is
0 (assumptions 3, 4), and no read shows it before it is written. The host has not acted yet. -/
def State.reset : State where
  fault := false
  cause := .none
  resultValid := false
  frameValid := false
  result := 0
  frame := 0
  fcmd := 0
  cur := none
  next := none
  out := []
  consumed := 0
  reply := none
  schedule := []
  cfg := Config.default
  epoch := 0
  reads := 0

end Sys2Proof.Machine
end

