-- ==== Sys2Proof/Machine/Flags.lean ====
section
/-! DEFINITION. STATUS and POS as views of the state (10_state.md rules R22, R27). The block has no other
flags (rule R30). -/

namespace Sys2Proof.Machine

/-- The cause codes (60_exceptions.md rule R230). -/
def Cause.code : Cause → BitVec 4
  | .none => 0
  | .illegalCmd => 1
  | .illegalOperand => 2
  | .range => 3
  | .noFrame => 4
  | .overrun => 5

/-- STATUS.CUR_BUSY: CUR is not empty (rule R22). -/
def State.curBusy (s : State) : Bool := s.cur.isSome

/-- STATUS.NEXT_FULL: NEXT is not empty (rule R22). -/
def State.nextFull (s : State) : Bool := s.next.isSome

/-- STATUS, with bits 31:9 reading as 0 (rule R22). -/
def State.status (s : State) : Word32 :=
  0#23 ++ BitVec.ofBool s.frameValid ++ BitVec.ofBool s.resultValid ++ BitVec.ofBool s.nextFull
    ++ BitVec.ofBool s.curBusy ++ s.cause.code ++ BitVec.ofBool s.fault

/-- POS: 0 while CUR is empty, else the sample index in bits 31:0 and the frame position BASE + PS in bits
37:32 (rule R27). -/
def State.pos (s : State) : Word64 :=
  match s.cur with
  | none => 0
  | some c => 0#26 ++ (c.slot.base + BitVec.ofNat 6 c.ps) ++ BitVec.ofNat 32 c.pi

/-- FRAME as the host reads it once written: FRAME[63:59] read as 0 (rule R24). -/
def State.frameWord (s : State) : Word64 := s.frame.setWidth 64

end Sys2Proof.Machine
end

