-- ==== Sys2Proof/Machine/Operands.lean ====
section
/-! DEFINITION. The operand functions of the commands: the BCD field rule, parity, the legal ranges, the
symbols of a frame (40_bcd_encoder.md, 41_parity.md). Operands are unsigned integers (rule R79). -/

namespace Sys2Proof.Machine

/-- The BCD field of `v` in `w` bits, as an integer (rule R100): plain binary up to four bits, else the
ones digit in bits 3:0 and the tens above. -/
def bcdField (v w : Nat) : Nat := if w ≤ 4 then v else v % 10 + 16 * (v / 10)

/-- `v` fits a field of `w` bits (rule R101). -/
abbrev fits (v w : Nat) : Prop := if w ≤ 4 then v < 2 ^ w else v / 10 < 2 ^ (w - 4)

/-- The value a BCD field of `w` bits stands for (the decoding law, rule R102). -/
def bcdValue (f w : Nat) : Nat := if w ≤ 4 then f % 2 ^ w else f % 16 + 10 * (f / 16 % 2 ^ (w - 4))

/-- `bcdField` as the bits of a frame field. -/
def bcdBits (w v : Nat) : BitVec w := BitVec.ofNat w (bcdField v w)

/-- popcount(v[len-1:0]) (rule R10). -/
def ones {n : Nat} (v : BitVec n) : Nat → Nat
  | 0 => 0
  | len + 1 => ones v len + (v.getLsbD len).toNat

/-- The even-parity bit of the string v[len-1:0] (rule R140). -/
def parity {n : Nat} (v : BitVec n) (len : Nat) : BitVec 1 := BitVec.ofNat 1 (ones v len % 2)

/-- The legal range of every ENCODE operand (rules R73, R110): each field on its own (rule R113). -/
abbrev timeInRange (t : CivilTime) : Prop :=
  t.min ≤ 59 ∧ t.hour ≤ 23 ∧ 1 ≤ t.day ∧ t.day ≤ 31 ∧ t.wday ≤ 6 ∧ 1 ≤ t.mon ∧ t.mon ≤ 12 ∧ t.year ≤ 99

/-- The legal widths of BCD (rules R75, R120). -/
abbrev widthLegal (w : BitVec 4) : Prop := 1 ≤ w.toNat ∧ w.toNat ≤ Config.bcdMaxWidth

/-- The legal lengths of PARITY (rules R74, R145). -/
abbrev lengthLegal (len : BitVec 6) : Prop := len.toNat ≤ Config.parityMaxLen

/-- The legal sample rates (rules R76, R77). -/
abbrev rateLegal (sr : Word32) : Prop := sr ≠ 0

/-- The legal start positions of SYNM (rules R77, R171). -/
abbrev startLegal (start : BitVec 6) : Prop := start ≤ 59

/-- `symOf` of rule R170; SYM = 3 is no symbol (rule R76). -/
def symOf (sym : BitVec 2) : Option Symbol :=
  match sym.toNat with
  | 0 => some .zero
  | 1 => some .one
  | 2 => some .term
  | _ => none

/-- Symbol `k` of the frame whose data bits are `f` (rule R104): the terminator has no storage bit. -/
def frameSymbol (f : FrameData) (k : Nat) : Symbol :=
  if k = 59 then .term else if f.getLsbD k then .one else .zero

/-- The symbols of a frame from position `start` to the terminator (rule R171). -/
def frameSymbols (f : FrameData) (start : Nat) : List Symbol :=
  (List.range' start (60 - start)).map (frameSymbol f)

/-- Day, weekday, month and year as the 22 date bits of frame positions 36..57 (rules R103, R109). -/
def dateBits (t : CivilTime) : BitVec 22 :=
  bcdBits 8 t.year.toNat ++ bcdBits 5 t.mon.toNat ++ bcdBits 3 t.wday.toNat ++ bcdBits 6 t.day.toNat

/-- The data bits of the minute frame of a civil time (rules R103, R110), position 58 on the left. -/
def timeFrame (cfg : Config) (t : CivilTime) : FrameData :=
  let minute := bcdBits 7 t.min.toNat
  let hour := bcdBits 6 t.hour.toNat
  let date := dateBits t
  parity date 22 ++ date ++ parity hour 6 ++ hour ++ parity minute 7 ++ minute
    ++ 0b10#2 ++ ~~~t.dst ++ t.dst ++ cfg.preamble

end Sys2Proof.Machine
end

