-- ==== Sys2Proof/Machine/Tone.lean ====
section
/-! DEFINITION. The sample function of the synthesizer (42_synthesizer.md rules R160 to R167): notch, phase,
and the quantized sine QSIN, evaluated exactly (assumption 8). -/

namespace Sys2Proof.Machine

/-- Ten times ampMod: the silent tenths of a second (rule R161). -/
def Symbol.silentTenths : Symbol → Nat
  | .zero => 1
  | .one => 2
  | .term => 10

/-- Sample `i` of a second is silent (rule R161). -/
abbrev silent (sym : Symbol) (i sr : Nat) : Prop := 10 * i < sym.silentTenths * sr

/-- The phase numerator of sample `i` of a second (rule R162). -/
def phase (i sr : Nat) : Nat := Config.carrierHz * i % sr

/-! ### QSIN

`QSIN(m, SR) = floor(sin(2π·m/SR)·SR/3)` over the reals (rule R160). Three stages, each exact: the exact
angles of rule R165 (c), where the sine is rational; else a rational enclosure of the value, which mostly
leaves one floor; else, with two candidates left, an exact comparison of the sine with a rational. -/

/-- Twice the sine at the exact angle `j`/12 of a turn (rule R165 (c)); `none` where it is irrational. -/
def twiceSineAt : Nat → Option Int
  | 0 => some 0
  | 1 => some 1
  | 3 => some 2
  | 5 => some 1
  | 6 => some 0
  | 7 => some (-1)
  | 9 => some (-2)
  | 11 => some (-1)
  | _ => none

/-- Twice the sine of 2π·m/sr if m is an exact angle (rule R165 (c)). -/
def exactTwiceSine (m sr : Nat) : Option Int :=
  if 12 * m % sr = 0 then twiceSineAt (12 * m / sr) else none

/-- π·10^20, rounded down. -/
def piScaled : Int := 314159265358979323846

/-- The Taylor polynomial of the sine at a/b, from its term number `k` on, divided by the power of a/b it
starts with, as a fraction of integers: `1 - x²/((2k+2)(2k+3))·(1 - …)`, with `terms` factors. -/
def sineSeries (a b : Int) : Nat → Nat → Int × Int
  | 0, _ => (1, 1)
  | terms + 1, k =>
    let rest := sineSeries a b terms (k + 1)
    let c := b * b * ((2 * k + 2) * (2 * k + 3))
    (c * rest.2 - a * a * rest.1, c * rest.2)

/-- How many factors of the series are taken. -/
def sineTerms : Nat := 31

/-- A fraction within 3·10^-20 of sin(2π·m/sr) for m < sr: the polynomial at 2·piScaled·m/(10^20·sr). -/
def sineApprox (m sr : Nat) : Int × Int :=
  let a := 2 * piScaled * m
  let b := 10 ^ 20 * (sr : Int)
  let p := sineSeries a b sineTerms 0
  (a * p.1, b * p.2)

/-- The floors of the two ends of the enclosure of sin(2π·m/sr)·sr/3 that `sineApprox` gives. -/
def qsinBounds (m sr : Nat) : Int × Int :=
  let p := sineApprox m sr
  let scaled := p.1 * 10 ^ 20
  let slack := 3 * p.2
  let den := 3 * (p.2 * 10 ^ 20)
  ((scaled - slack) * sr / den, (scaled + slack) * sr / den)

/-- `(h, S_j, S_(j+1))` after `j` steps, for the angle ψ in (0, π) with cos ψ = p/d: h = floor(j·ψ/π), and
S_j = d^(j-1)·sin(j·ψ)/sin ψ, which has the sign of sin(j·ψ). A step passes a multiple of π iff that sign
is no longer the one of half-turn h. -/
def halfTurns (p d : Int) : Nat → Nat × Int × Int
  | 0 => (0, 0, 1)
  | j + 1 =>
    let r := halfTurns p d j
    let stays := if r.1 % 2 = 0 then 0 < r.2.2 else r.2.2 < 0
    (if stays then r.1 else r.1 + 1, r.2.2, 2 * p * r.2.2 - d * d * r.2.1)

/-- sin(2π·m/sr) = cos(π·k/(2·sr)) with k in 0..2·sr: this k, for m < sr. -/
def cosineAngle (m sr : Nat) : Nat :=
  if 4 * m ≤ sr then sr - 4 * m else if 4 * m ≤ 3 * sr then 4 * m - sr else 5 * sr - 4 * m

/-- `q ≤ sin(2π·m/sr)·sr/3`, decided exactly: with cos ψ = 3q/sr, it says k ≤ 2·sr·ψ/π. -/
def sineAtLeast (q : Int) (m sr : Nat) : Bool :=
  if (sr : Int) < 3 * q then false
  else if 3 * q = sr then cosineAngle m sr = 0
  else if 3 * q ≤ -sr then true
  else cosineAngle m sr ≤ (halfTurns (3 * q) sr (2 * sr)).1

/-- QSIN (rule R160), for m < sr. -/
def qsin (m sr : Nat) : Int :=
  match exactTwiceSine m sr with
  | some e => e * sr / 6
  | none =>
    let b := qsinBounds m sr
    if b.1 = b.2 then b.1 else if sineAtLeast b.2 m sr then b.2 else b.1

/-- Sample `i` of the second of symbol `sym` (rule R163). -/
def sampleCode (sym : Symbol) (i sr : Nat) : Int :=
  if silent sym i sr then 0 else qsin (phase i sr) sr

/-- That sample as OUT holds it (rules R29, R175; assumption 17). -/
def sampleAt (sym : Symbol) (i : Nat) (sr : Word32) : Sample :=
  { q := BitVec.ofInt 32 (sampleCode sym i sr.toNat), sr := sr }

/-- The amplitude a sample stands for, 3·q/sr (rule R160). -/
def Sample.value (x : Sample) : Rat := 3 * x.q.toInt / x.sr.toNat

/-- The samples of one second (rule R163). -/
def wave (sym : Symbol) (sr : Word32) : List Sample :=
  (List.range sr.toNat).map fun i => sampleAt sym i sr

/-- The samples of a whole slot: its seconds, one after the other (rules R172, R180). -/
def Slot.waveform (e : Slot) : List Sample := e.syms.flatMap fun sym => wave sym e.sr

/-- The oscillator's phase, a function of CUR's position (rule R28). -/
def Playing.phase (c : Playing) : Nat := Sys2Proof.Machine.phase c.pi c.slot.sr.toNat

end Sys2Proof.Machine
end

