-- ==== Sys2Proof/Machine/Ops.lean ====
section
/-! DEFINITION. The operations the commands and the agents' turns share: fault entry and the fault gate
(60_exceptions.md), the register and slot writes, the SYN step (42_synthesizer.md), register reads and
reset. -/

namespace Sys2Proof.Machine

/-- Fault entry (rule R235): the cause and the faulting word are recorded and both slots are emptied. The
command makes no other write, and samples already in OUT stay. There is no return: only reset clears a
fault (rule R239). -/
def raiseFault (c : Cause) (cmd : Word64) (s : State) : State :=
  { s with fault := true, cause := c, fcmd := cmd, cur := none, next := none }

/-- The fault gate (rule R236): while FAULT = 1 a command is discarded, else it has its effect `f`. -/
def gated (f : State → State) (s : State) : Outcome := .next (if s.fault then s else f s)

/-- RESULT <- v; RESULT_VALID <- 1 (rules R22, R23). -/
def writeResult (v : Word32) (s : State) : State := { s with result := v, resultValid := true }

/-- FRAME <- zext(f); FRAME_VALID <- 1 (rules R22, R24). No slot changes (20_memory.md rule R57). -/
def writeFrame (f : FrameData) (s : State) : State := { s with frame := f, frameValid := true }

/-- A record that enters CUR starts at PS = 0, PI = 0 (rules R170, R176). -/
def Slot.start (e : Slot) : Playing := { slot := e, ps := 0, pi := 0 }

/-- `accept` of rule R170: into CUR from its start, else into NEXT, else OVERRUN. `cmd` is the command's
word. -/
def accept (e : Slot) (cmd : Word64) (s : State) : State :=
  match s.cur, s.next with
  | none, _ => { s with cur := some e.start }
  | some _, none => { s with next := some e }
  | some _, some _ => raiseFault .overrun cmd s

/-- Both slots empty (rule R173). -/
def emptySlots (s : State) : State := { s with cur := none, next := none }

/-- `emit` (rule R11): one sample appended to OUT. -/
def emit (x : Sample) (s : State) : State := { s with out := s.out ++ [x] }

/-- End of slot, the swap (rule R176): NEXT moves to CUR in the same step. -/
def endOfSlot (s : State) : State := { s with cur := s.next.map Slot.start, next := none }

/-- The position of CUR after its sample (rule R175): the next sample of the second, else the next second,
else the swap. -/
def advance (c : Playing) (s : State) : State :=
  if c.pi + 1 ≠ c.slot.sr.toNat then { s with cur := some { c with pi := c.pi + 1 } }
  else if c.ps + 1 ≠ c.slot.syms.length then { s with cur := some { c with ps := c.ps + 1, pi := 0 } }
  else endOfSlot s

/-- A new instant: the values an unwritten register may answer are drawn anew (rule R54; assumption 5). -/
def tick (s : State) : State := { s with epoch := s.epoch + 1 }

/-- A turn of SYN (rule R175): with CUR empty there is no step and nothing changes (rule R178,
assumption 15); else one sample is emitted. A CUR that breaks rule R26 stops the model (assumption 10). -/
def synTurn (s : State) : Outcome :=
  match s.cur with
  | none => .next s
  | some c =>
    match c.slot.syms[c.ps]? with
    | none => .fault .slotCorrupt
    | some sym =>
      if c.pi < c.slot.sr.toNat then .next (tick (advance c (emit (sampleAt sym c.pi c.slot.sr) s)))
      else .fault .slotCorrupt

/-- What a read of register `n` answers (rule R213). Reads of an unwritten RESULT or FRAME and of an
unimplemented number answer free values (assumptions 5, 6). -/
def readValue (n : Nat) (s : State) : Reply :=
  match n with
  | 0 => .word32 s.status
  | 1 => .word32 (if s.resultValid then s.result else Config.unwrittenResult s.epoch)
  | 2 => .word64 (if s.frameValid then s.frameWord else Config.unwrittenFrame s.epoch)
  | 3 => .word64 s.pos
  | 4 => .word64 s.fcmd
  | _ => .word64 (Config.unimplementedRead n s.epoch s.reads)

/-- read(n) as a host step (rules R54, R213): the host gets the value; the block does not change. -/
def hostRead (n : Nat) (s : State) : State :=
  { s with reply := some (readValue n s), reads := if n ≤ 4 then s.reads else s.reads + 1 }

/-- consume as a host step (rules R29, R210): the host gets the next sample of OUT, in order, if there is
one; OUT itself stays (assumption 12). -/
def hostConsume (s : State) : State :=
  match s.out[s.consumed]? with
  | none => s
  | some x => { s with consumed := s.consumed + 1, reply := some (.sample x) }

/-- The reset input (rule R260): every piece of the block's state to its reset value. The configuration
and the host's own side stay (assumption 14). -/
def hostReset (s : State) : State :=
  { State.reset with
    cfg := s.cfg, schedule := s.schedule, reply := s.reply, epoch := s.epoch, reads := s.reads }

end Sys2Proof.Machine
end

