-- ==== Sys2Proof/Machine/Control.lean ====
section
/-! DEFINITION. NOP (43_control.md). -/

namespace Sys2Proof.Machine

/-- NOP (rule R211): no effect. -/
def execNop (s : State) : Outcome := gated id s

end Sys2Proof.Machine
end

