-- ==== Sys2Proof/Machine/Encoder.lean ====
section
/-! DEFINITION. The BCD time encoder's commands: ENCODE, BCD, LDFR (40_bcd_encoder.md). A fault records the
command's word, which is `encode` of the command (assumption 9). -/

namespace Sys2Proof.Machine

/-- ENCODE (rule R110). -/
def execEncode (t : CivilTime) (s : State) : Outcome :=
  gated (fun s =>
    if timeInRange t then writeFrame (timeFrame s.cfg t) s
    else raiseFault .range (encode (.encode t)) s) s

/-- BCD (rule R120): the width is checked before the fit (rule R237). -/
def execBcd (w : BitVec 4) (val : BitVec 8) (s : State) : Outcome :=
  gated (fun s =>
    if ¬ widthLegal w then raiseFault .illegalOperand (encode (.bcd w val)) s
    else if ¬ fits val.toNat w.toNat then raiseFault .range (encode (.bcd w val)) s
    else writeResult (BitVec.ofNat 32 (bcdField val.toNat w.toNat)) s) s

/-- LDFR (rule R125): any 59 data bits, unchecked (rule R126). -/
def execLdfr (fr : FrameData) (s : State) : Outcome := gated (writeFrame fr) s

end Sys2Proof.Machine
end

