-- ==== Sys2Proof/Machine/Parity.lean ====
section
/-! DEFINITION. PARITY (41_parity.md). -/

namespace Sys2Proof.Machine

/-- PARITY (rule R145): bits at positions from `len` up are ignored (rule R146 (b)). -/
def execParity (len : BitVec 6) (data : BitVec 48) (s : State) : Outcome :=
  gated (fun s =>
    if lengthLegal len then writeResult ((parity data len.toNat).setWidth 32) s
    else raiseFault .illegalOperand (encode (.parity len data)) s) s

end Sys2Proof.Machine
end

