-- ==== Sys2Proof/Machine/Synth.lean ====
section
/-! DEFINITION. The synthesizer's commands: SYNS, SYNM, ABORT (42_synthesizer.md). -/

namespace Sys2Proof.Machine

/-- The record SYNS queues (rule R170). -/
def symbolSlot (sym : Symbol) (sr : Word32) : Slot := { syms := [sym], base := 0, sr := sr }

/-- The record SYNM queues (rule R171): a copy of the frame's symbols (20_memory.md rule R57). -/
def minuteSlot (f : FrameData) (start : BitVec 6) (sr : Word32) : Slot :=
  { syms := frameSymbols f start.toNat, base := start, sr := sr }

/-- SYNS (rule R170), checked in the order of rule R237. SYM = 3 is ILLEGAL_CMD (rule R80 (c)); the decoder
gives no such command (assumption 11). -/
def execSyns (sym : BitVec 2) (sr : Word32) (s : State) : Outcome :=
  gated (fun s =>
    match symOf sym with
    | none => raiseFault .illegalCmd (encode (.syns sym sr)) s
    | some y =>
      if rateLegal sr then accept (symbolSlot y sr) (encode (.syns sym sr)) s
      else raiseFault .range (encode (.syns sym sr)) s) s

/-- SYNM (rule R171), checked in the order of rule R237. -/
def execSynm (start : BitVec 6) (sr : Word32) (s : State) : Outcome :=
  gated (fun s =>
    if ¬ (startLegal start ∧ rateLegal sr) then raiseFault .range (encode (.synm start sr)) s
    else if ¬ s.frameValid then raiseFault .noFrame (encode (.synm start sr)) s
    else accept (minuteSlot s.frame start sr) (encode (.synm start sr)) s) s

/-- ABORT (rule R173). -/
def execAbort (s : State) : Outcome := gated emptySlots s

end Sys2Proof.Machine
end

