-- ==== Sys2Proof/Machine/Dispatch.lean ====
section
/-! DEFINITION. The meaning of each command, one arm per constructor. -/

namespace Sys2Proof.Machine

def exec (i : Instr) (s : State) : Host.Outcome State Fault Refusal :=
  match i with
  | .nop => Sys2Proof.Machine.execNop s
  | .encode t => Sys2Proof.Machine.execEncode t s
  | .parity len data => Sys2Proof.Machine.execParity len data s
  | .bcd w val => Sys2Proof.Machine.execBcd w val s
  | .syns sym sr => Sys2Proof.Machine.execSyns sym sr s
  | .synm start sr => Sys2Proof.Machine.execSynm start sr s
  | .abort => Sys2Proof.Machine.execAbort s
  | .ldfr fr => Sys2Proof.Machine.execLdfr fr s

end Sys2Proof.Machine
end

