-- ==== Sys2Proof/Machine/HostPort.lean ====
section
/-! DEFINITION. The turns of the two agents (43_control.md rules R210 to R213): what each does to the
block. -/

namespace Sys2Proof.Machine

/-- issue(CMD) (rule R212): discarded while FAULT = 1, else decoded and executed; an illegal word faults
with ILLEGAL_CMD (rule R80). -/
def issue (cmd : Word64) (s : State) : Outcome :=
  if s.fault then .next s
  else
    match decode cmd with
    | none => .next (raiseFault .illegalCmd cmd s)
    | some i => exec i s

/-- One turn (rules R56, R210). A read leaves the instant as it is, so that reads with no step between them
agree (rule R54). -/
def perform (t : Turn) (s : State) : Outcome :=
  match t with
  | .issue cmd => issue cmd (tick s)
  | .read n => .next (hostRead n s)
  | .reset => .next (hostReset (tick s))
  | .consume => .next (hostConsume (tick s))
  | .syn => synTurn s

/-- The schedule without its first turn. -/
def popTurn (rest : List Turn) (s : State) : State := { s with schedule := rest }

/-- `turn` before every other. -/
def pushTurn (t : Turn) (s : State) : State := { s with schedule := t :: s.schedule }

end Sys2Proof.Machine
end

