-- ==== Sys2Proof/Machine/Step.lean ====
section
/-! DEFINITION. One step: the next turn of the schedule. With no host turn to come, SYN moves as long as it
can (assumption 1). -/

namespace Sys2Proof.Machine

def step (s : State) : Host.Outcome State Fault Refusal :=
  match s.schedule with
  | [] => synTurn s
  | t :: rest => perform t (popTurn rest s)

/-- `s` with the host about to issue the instruction whose table bits are `w`: the block has no program and
no fetch, its next command is the one the host issues (rules R21, R261; assumption 2). -/
def State.withFetchWord (s : State) (nbits w : Nat) : State := pushTurn (.issue (tableWord nbits w)) s

end Sys2Proof.Machine
end

