-- ==== Sys2Proof/Machine/Asm.lean ====
section
/-! DEFINITION. The assembler's text form, the host's lines and the pseudo-instructions (43_control.md rules
R215, R216). A program's lines become turns of the schedule. -/

namespace Sys2Proof.Machine.Asm

/-- The seven operands of an ENCODE line, as the numbers written. -/
structure Time where
  min : Nat
  hour : Nat
  day : Nat
  wday : Nat
  mon : Nat
  year : Nat
  dst : Nat
  deriving DecidableEq, Repr

/-- A line, with its operands as the numbers written (rule R215). `read`, `reset` and `run` are host
actions, not commands. -/
inductive Line where
  | nop
  | encode (t : Time)
  | parity (len data : Nat)
  | bcd (w val : Nat)
  | syns (sym : Symbol) (sr : Nat)
  | synm (start sr : Nat)
  | abort
  | ldfr (frame : Nat)
  | word64 (v : Nat)
  | read (n : Nat)
  | reset
  | run (k : Nat)
  deriving DecidableEq, Repr

/-- A number as a field of `n` bits; one that does not fit is an assembler error. -/
def fit (n v : Nat) : Option (BitVec n) := if v < 2 ^ n then some (BitVec.ofNat n v) else none

/-- The SYM operand of a symbol (rule R76). -/
def symCode : Symbol → BitVec 2
  | .zero => 0
  | .one => 1
  | .term => 2

def Time.operands (t : Time) : Option CivilTime := do
  return { min := ← fit 6 t.min, hour := ← fit 5 t.hour, day := ← fit 5 t.day, wday := ← fit 3 t.wday,
           mon := ← fit 4 t.mon, year := ← fit 7 t.year, dst := ← fit 1 t.dst }

/-- The command of a command line. Any value that fits the field's bits is accepted: the range checks are
the block's. -/
def Line.command : Line → Option Instr
  | .nop => some .nop
  | .encode t => do return .encode (← t.operands)
  | .parity len data => do return .parity (← fit 6 len) (← fit 48 data)
  | .bcd w val => do return .bcd (← fit 4 w) (← fit 8 val)
  | .syns sym sr => do return .syns (symCode sym) (← fit 32 sr)
  | .synm start sr => do return .synm (← fit 6 start) (← fit 32 sr)
  | .abort => some .abort
  | .ldfr frame => do return .ldfr (← fit 59 frame)
  | .word64 _ | .read _ | .reset | .run _ => none

/-- The one word a line assembles to; host actions have none. -/
def Line.word : Line → Option Word64
  | .word64 v => fit 64 v
  | l => l.command.map Sys2Proof.encode

/-- What a line asks of the two agents. `RUN k` lets SYN take k steps. -/
def Line.turns : Line → Option (List Turn)
  | .read n => some [.read n]
  | .reset => some [.reset]
  | .run k => some (List.replicate k .syn)
  | l => l.word.map fun w => [.issue w]

/-- The turns of a program; no program comes of a line with an assembler error. -/
def program : List Line → Option (List Turn)
  | [] => some []
  | l :: ls => do return (← l.turns) ++ (← program ls)

/-! ### Pseudo-instructions (rule R216) -/

inductive Pseudo where
  | txstart (t : Time) (sec sr : Nat)
  | txqueue (t : Time) (sr : Nat)
  | txstop
  /-- As many polls as the host makes until NEXT_FULL = 0 (assumption 19). -/
  | waitfree (polls : Nat)
  | par7 (v : Nat)
  | par6 (v : Nat)
  | par22 (v : Nat)
  deriving DecidableEq, Repr

def Pseudo.expand : Pseudo → List Line
  | .txstart t sec sr => [.encode t, .synm sec sr]
  | .txqueue t sr => [.encode t, .synm 0 sr]
  | .txstop => [.abort]
  | .waitfree polls => List.replicate polls (.read 0)
  | .par7 v => [.parity 7 v]
  | .par6 v => [.parity 6 v]
  | .par22 v => [.parity 22 v]

/-- WAITFREE's loop is over when the STATUS it reads has bit 6, NEXT_FULL, at 0. -/
def waitfreeDone : Reply → Bool
  | .word32 status => !status.getLsbD 6
  | .word64 _ | .sample _ => false

/-! ### Text (rule R215): a mnemonic, then keyword=value operands in the order shown, separated by commas.
Spaces around a part do not matter (assumption 19). -/

def trimLeft : List Char → List Char
  | [] => []
  | c :: cs => if c = ' ' then trimLeft cs else c :: cs

def trim (s : List Char) : List Char := (trimLeft (trimLeft s).reverse).reverse

/-- The part before the first `sep`, and the parts after each. -/
def splitAll (sep : Char) : List Char → List Char × List (List Char)
  | [] => ([], [])
  | c :: cs =>
    let r := splitAll sep cs
    if c = sep then ([], r.1 :: r.2) else (c :: r.1, r.2)

/-- A digit of base `base`, at most 16. -/
def digit (base : Nat) (c : Char) : Option Nat :=
  let d := if '0' ≤ c ∧ c ≤ '9' then c.toNat - '0'.toNat
    else if 'a' ≤ c ∧ c ≤ 'f' then c.toNat - 'a'.toNat + 10
    else if 'A' ≤ c ∧ c ≤ 'F' then c.toNat - 'A'.toNat + 10
    else base
  if d < base then some d else none

def digits (base : Nat) : Nat → List Char → Option Nat
  | n, [] => some n
  | n, c :: cs => do digits base (n * base + (← digit base c)) cs

/-- A decimal or 0x-prefixed hexadecimal number. -/
def number : List Char → Option Nat
  | [] => none
  | '0' :: 'x' :: c :: cs => digits 16 0 (c :: cs)
  | c :: cs => digits 10 0 (c :: cs)

/-- The value of the operand `key=value`. -/
def operand (key : List Char) (part : List Char) : Option (List Char) :=
  match splitAll '=' part with
  | (k, [v]) => if trim k = key then some (trim v) else none
  | _ => none

/-- The values of the operands with these keywords, in this order. -/
def operands : List (List Char) → List (List Char) → Option (List (List Char))
  | [], [] => some []
  | key :: keys, part :: parts => do return (← operand key part) :: (← operands keys parts)
  | _, _ => none

def numbers : List (List Char) → Option (List Nat)
  | [] => some []
  | v :: vs => do return (← number v) :: (← numbers vs)

def symbolOf : List Char → Option Symbol
  | ['0'] => some .zero
  | ['1'] => some .one
  | ['-'] => some .term
  | _ => none

/-- A register by number or name (rule R215). -/
def registerOf (s : List Char) : Option Nat :=
  if s = "STATUS".toList then some 0
  else if s = "RESULT".toList then some 1
  else if s = "FRAME".toList then some 2
  else if s = "POS".toList then some 3
  else if s = "FCMD".toList then some 4
  else number s

/-- The line a text is; `none` where it is no line of rule R215. -/
def parse (text : List Char) : Option Line :=
  let head := splitAll ' ' (trim text)
  let rest := trim ((trim text).drop head.1.length)
  let parts := if rest = [] then [] else (splitAll ',' rest).1 :: (splitAll ',' rest).2
  let nums (keys : List String) : Option (List Nat) := do numbers (← operands (keys.map String.toList) parts)
  let is (m : String) : Bool := head.1 = m.toList
  if is "NOP" then (if parts = [] then some .nop else none)
  else if is "ABORT" then (if parts = [] then some .abort else none)
  else if is "RESET" then (if parts = [] then some .reset else none)
  else if is "ENCODE" then
    match nums ["min", "hour", "day", "wday", "mon", "year", "dst"] with
    | some [mi, h, d, wd, mo, y, dst] => some (.encode ⟨mi, h, d, wd, mo, y, dst⟩)
    | _ => none
  else if is "PARITY" then
    match nums ["len", "data"] with
    | some [len, data] => some (.parity len data)
    | _ => none
  else if is "BCD" then
    match nums ["w", "val"] with
    | some [w, val] => some (.bcd w val)
    | _ => none
  else if is "SYNS" then
    match operands ["sym".toList, "sr".toList] parts with
    | some [sym, sr] => do return .syns (← symbolOf sym) (← number sr)
    | _ => none
  else if is "SYNM" then
    match nums ["start", "sr"] with
    | some [start, sr] => some (.synm start sr)
    | _ => none
  else if is "LDFR" then
    match nums ["frame"] with
    | some [frame] => some (.ldfr frame)
    | _ => none
  else if is ".word64" then (number rest).map .word64
  else if is "READ" then (registerOf rest).map .read
  else if is "RUN" then (number rest).map .run
  else none

/-- The one word a line of text assembles to. -/
def assemble (text : List Char) : Option Word64 := do (← parse text).word

end Sys2Proof.Machine.Asm
end

