-- ==== Sys2Proof/Machine/Bus.lean ====
section
/-! DEFINITION. A 64-bit word over a platform's byte bus (20_memory.md rule R52). The block itself moves no
bytes; the byte order is open, so it is an argument, and that it is one of two is the model's choice
(assumption 16). -/

namespace Sys2Proof.Machine

/-- The eight bytes of a word, in the order the bus carries them. -/
def busBytes (order : ByteOrder) (w : Word64) : List (BitVec 8) :=
  let low := (List.range 8).map fun i => w.extractLsb' (8 * i) 8
  match order with
  | .lowByteFirst => low
  | .highByteFirst => low.reverse

/-- The word of some bytes, the byte of bits 7:0 first. -/
def wordOfLowFirst : List (BitVec 8) → Word64
  | [] => 0
  | b :: bs => wordOfLowFirst bs <<< 8 ||| b.setWidth 64

/-- The word the platform delivers: whole, so of exactly eight bytes (rules R52, R54). -/
def wordOfBus (order : ByteOrder) (bytes : List (BitVec 8)) : Option Word64 :=
  if bytes.length = 8 then
    some (wordOfLowFirst (match order with
      | .lowByteFirst => bytes
      | .highByteFirst => bytes.reverse))
  else none

end Sys2Proof.Machine
end

