-- ==== Sys2Proof/Safety.lean ====
section
/-! DEFINITION. What a good state is: the invariants the spec states of every reachable state (10_state.md
rules R22, R25, R26). A run's output is meaningful only if the run ends with FAULT = 0 (60_exceptions.md
rule R236): a claim about output says `fault = false`. -/

namespace Sys2Proof.Machine

/-- A slot record obeys rule R26: 1 to 60 symbols, all within a frame counted from BASE, SR at least 1. -/
def Slot.Ok (e : Slot) : Prop :=
  1 ≤ e.syms.length ∧ e.base.toNat + e.syms.length ≤ 60 ∧ 1 ≤ e.sr.toNat

/-- CUR obeys rule R26: its slot does, and its position is within it. -/
def Playing.Ok (c : Playing) : Prop :=
  c.slot.Ok ∧ c.ps < c.slot.syms.length ∧ c.pi < c.slot.sr.toNat

/-- The invariant of every reachable state. -/
structure State.Inv (s : State) : Prop where
  /-- NEXT_FULL = 1 implies CUR_BUSY = 1 (rule R22). -/
  nextBehindCur : s.nextFull → s.curBusy
  /-- FAULT = 1 implies CUR_BUSY = 0 and NEXT_FULL = 0 (rule R22). -/
  faultedIsQuiet : s.fault → ¬ s.curBusy ∧ ¬ s.nextFull
  /-- FAULT = 0 iff CAUSE = 0 (rule R22). -/
  faultHasCause : s.fault = false ↔ s.cause = .none
  /-- FCMD is 0 until the first fault (rule R25). -/
  fcmdUntouched : s.fault = false → s.fcmd = 0
  curOk : ∀ c, s.cur = some c → c.Ok
  nextOk : ∀ e, s.next = some e → e.Ok
  /-- The host consumes only samples that were emitted (rule R29). -/
  consumedEmitted : s.consumed ≤ s.out.length

/-- `k` steps, ended by a stop if there is one. -/
def run : Nat → State → Outcome
  | 0, s => .next s
  | k + 1, s =>
    match step s with
    | .next t => run k t
    | .fault r => .fault r
    | .refused r => .refused r

/-- The next `n` steps are turns of SYN: turns the schedule lists, or the turns SYN takes once the schedule is
empty (assumption 1). They use up the first `n` turns of the schedule, as far as it goes. -/
def State.SynMoves (n : Nat) (s : State) : Prop := ∀ turn ∈ s.schedule.take n, turn = .syn

/-! ### The samples still to come (42_synthesizer.md rules R172, R177) -/

/-- The samples of CUR not yet emitted. -/
def Playing.remaining (c : Playing) : List Sample :=
  c.slot.waveform.drop (c.ps * c.slot.sr.toNat + c.pi)

/-- The samples both slots still hold, CUR's first. -/
def State.pending (s : State) : List Sample :=
  (s.cur.map Playing.remaining).getD [] ++ (s.next.map Slot.waveform).getD []

end Sys2Proof.Machine
end

