-- ==== Sys2Proof/Certificates/Slice0/Obligations.lean ====
section
/-! DEFINITION. The statements for the provers. Each docstring names the rule of spec/ it formalises.
A faulted state and the effect of a turn on the model's own fields are written out here a second time, so
that the statements do not lean on the operations they are about. -/

namespace Sys2Proof.Claims
open Sys2Proof.Machine

/-- The writes of fault entry (60_exceptions.md rule R235), field by field. -/
def faulted (c : Cause) (cmd : Word64) (s : State) : State :=
  { s with fault := true, cause := c, fcmd := cmd, cur := none, next := none }

/-- `s` after its first turn has been taken, but for what the turn does: the turns that are left, and the
model's own counter `epoch` (assumption 5). -/
def taken (rest : List Turn) (s : State) : State := { s with schedule := rest, epoch := s.epoch + 1 }

/-- The words rule R80 calls illegal: (a) a reserved opcode, (b) a reserved bit set, (c) SYNS with SYM = 3. -/
def Illegal (w : Word64) : Prop :=
  8 ≤ (field w 0 4).toNat ∨
  ((field w 0 4 = 0 ∨ field w 0 4 = 6) ∧ field w 4 60 ≠ 0) ∨
  (field w 0 4 = 1 ∧ field w 35 29 ≠ 0) ∨
  (field w 0 4 = 2 ∧ field w 10 6 ≠ 0) ∨
  (field w 0 4 = 3 ∧ field w 16 48 ≠ 0) ∨
  (field w 0 4 = 4 ∧ field w 6 26 ≠ 0) ∨
  (field w 0 4 = 5 ∧ field w 10 22 ≠ 0) ∨
  (field w 0 4 = 7 ∧ field w 63 1 ≠ 0) ∨
  (field w 0 4 = 4 ∧ field w 4 2 = 3)

/-- Issuing `w` while FAULT = 0 faults with ILLEGAL_CMD. -/
def RaisesIllegalCmd (w : Word64) : Prop :=
  ∀ (s : State) (rest : List Turn), s.fault = false → s.schedule = .issue w :: rest →
    step s = .next (faulted .illegalCmd w (taken rest s))

/-- The operand ranges of ENCODE (rules R73, R110). -/
def InRange (t : CivilTime) : Prop :=
  t.min.toNat ≤ 59 ∧ t.hour.toNat ≤ 23 ∧ 1 ≤ t.day.toNat ∧ t.day.toNat ≤ 31 ∧ t.wday.toNat ≤ 6 ∧
  1 ≤ t.mon.toNat ∧ t.mon.toNat ≤ 12 ∧ t.year.toNat ≤ 99

/-- `f` is the minute frame of `t` (rules R103, R110), position by position. -/
def IsFrameOf (cfg : Config) (t : CivilTime) (f : FrameData) : Prop :=
  f.extractLsb' 0 17 = cfg.preamble ∧
  f.extractLsb' 17 1 = t.dst ∧
  f.extractLsb' 18 1 = 1 - t.dst ∧
  f.extractLsb' 19 1 = 0 ∧
  f.extractLsb' 20 1 = 1 ∧
  f.extractLsb' 21 7 = BitVec.ofNat 7 (bcdField t.min.toNat 7) ∧
  f.extractLsb' 28 1 = parity (f.extractLsb' 21 7) 7 ∧
  f.extractLsb' 29 6 = BitVec.ofNat 6 (bcdField t.hour.toNat 6) ∧
  f.extractLsb' 35 1 = parity (f.extractLsb' 29 6) 6 ∧
  f.extractLsb' 36 6 = BitVec.ofNat 6 (bcdField t.day.toNat 6) ∧
  f.extractLsb' 42 3 = BitVec.ofNat 3 (bcdField t.wday.toNat 3) ∧
  f.extractLsb' 45 5 = BitVec.ofNat 5 (bcdField t.mon.toNat 5) ∧
  f.extractLsb' 50 8 = BitVec.ofNat 8 (bcdField t.year.toNat 8) ∧
  f.extractLsb' 58 1 = parity (f.extractLsb' 36 22) 22

/-- `accept` of rule R170, case by case: what a synthesis command with the record `e` and the word `w`
answers in state `s`. -/
def Accepted (e : Slot) (w : Word64) (s : State) (answer : Outcome) : Prop :=
  (s.cur = none → answer = .next { s with cur := some { slot := e, ps := 0, pi := 0 } }) ∧
  (s.cur ≠ none → s.next = none → answer = .next { s with next := some e }) ∧
  (s.cur ≠ none → s.next ≠ none → answer = .next (faulted .overrun w s))

/-- Issuing `w` in state `s` meets the condition of fault cause `c` (rules R230, R237). -/
def Meets (w : Word64) (s : State) : Cause → Prop
  | .none => False
  | .illegalCmd => Illegal w
  | .illegalOperand =>
    (∃ n v, decode w = some (.bcd n v) ∧ (n.toNat = 0 ∨ 8 < n.toNat)) ∨
    (∃ len data, decode w = some (.parity len data) ∧ 48 < len.toNat)
  | .range =>
    (∃ t, decode w = some (.encode t) ∧ ¬ InRange t) ∨
    (∃ n v, decode w = some (.bcd n v) ∧ ¬ fits v.toNat n.toNat) ∨
    (∃ sym sr, decode w = some (.syns sym sr) ∧ sr.toNat = 0) ∨
    (∃ start sr, decode w = some (.synm start sr) ∧ (59 < start.toNat ∨ sr.toNat = 0))
  | .noFrame => ∃ start sr, decode w = some (.synm start sr) ∧ s.frameValid = false
  | .overrun =>
    ((∃ sym sr, decode w = some (.syns sym sr)) ∨ (∃ start sr, decode w = some (.synm start sr))) ∧
    s.cur ≠ none ∧ s.next ≠ none

/-- The samples a turn adds to those to come: the waveform of the synthesis command it issues, if it issues
one (rules R170, R171, R177). -/
def queued (turn : Turn) (s : State) : List Sample :=
  match turn with
  | .issue w =>
    match decode w with
    | some (.syns sym sr) =>
      match symOf sym with
      | some y => wave y sr
      | none => []
    | some (.synm start sr) =>
      (List.range' start.toNat (60 - start.toNat)).flatMap fun k => wave (frameSymbol s.frame k) sr
    | _ => []
  | _ => []

/-- A turn of the host that takes nothing out of the slots, unless it faults: no reset, no ABORT (rule R176
speaks of the steps of SYN; these may come in between). -/
def HostKeepsSlots (turn : Turn) : Prop := turn ≠ .syn ∧ turn ≠ .reset ∧ turn ≠ .issue (encode .abort)

/-- The operands of a line that assembles to a word, each with the width of its field (rule R215). -/
def operandWidths : Asm.Line → List (Nat × Nat)
  | .encode t =>
    [(6, t.min), (5, t.hour), (5, t.day), (3, t.wday), (4, t.mon), (7, t.year), (1, t.dst)]
  | .parity len data => [(6, len), (48, data)]
  | .bcd w val => [(4, w), (8, val)]
  | .syns _ sr => [(32, sr)]
  | .synm start sr => [(6, start), (32, sr)]
  | .ldfr frame => [(59, frame)]
  | .word64 v => [(64, v)]
  | .nop | .abort | .read _ | .reset | .run _ => []

/-- The command of a line holds exactly the operands written; a raw word and a host action have none
(rule R215). -/
def HoldsOperands : Asm.Line → Option Instr → Prop
  | .nop, c => c = some .nop
  | .encode t, c => ∃ o : CivilTime, c = some (.encode o) ∧ o.min.toNat = t.min ∧ o.hour.toNat = t.hour ∧
      o.day.toNat = t.day ∧ o.wday.toNat = t.wday ∧ o.mon.toNat = t.mon ∧ o.year.toNat = t.year ∧
      o.dst.toNat = t.dst
  | .parity len data, c => ∃ l d, c = some (.parity l d) ∧ l.toNat = len ∧ d.toNat = data
  | .bcd w val, c => ∃ n v, c = some (.bcd n v) ∧ n.toNat = w ∧ v.toNat = val
  | .syns y sr, c => ∃ n r, c = some (.syns n r) ∧ r.toNat = sr ∧
      n = (match y with
        | .zero => 0
        | .one => 1
        | .term => 2)
  | .synm start sr, c => ∃ n r, c = some (.synm n r) ∧ n.toNat = start ∧ r.toNat = sr
  | .abort, c => c = some .abort
  | .ldfr frame, c => ∃ f, c = some (.ldfr f) ∧ f.toNat = frame
  | .word64 _, c => c = none
  | .read _, c => c = none
  | .reset, c => c = none
  | .run _, c => c = none

end Sys2Proof.Claims

open Sys2Proof Sys2Proof.Machine Sys2Proof.Claims

/-! ### Encoding -/

/-- Rules R70 to R81: no bit of an encoding is dropped, and each word has one meaning. -/
def Obligations.DecodeAndEncodeAgree : Prop :=
  (∀ i : Instr, i.wellFormed = true → decode (encode i) = some i) ∧
  (∀ (w : Word64) (i : Instr), decode w = some i → i.wellFormed = true ∧ encode i = w)

/-- Rule R81's machine-readable copy: a word decodes iff it selects a row and is not SYNS with SYM = 3; the
row is the command's; no word selects two rows. -/
def Obligations.DecodeFollowsTheOpcodeTable : Prop :=
  (∀ w, (decode w).isSome = true ↔
    ∃ r ∈ opcodeTable, r.selects w ∧ ¬ (r.mnemonic = "SYNS" ∧ field w 4 2 = 3)) ∧
  (∀ w i, decode w = some i → ∃ r ∈ opcodeTable, r.selects w ∧ r.mnemonic = i.mnemonic) ∧
  (∀ w, ∀ r ∈ opcodeTable, ∀ r' ∈ opcodeTable, r.selects w → r'.selects w → r = r')

/-- Rule R80: exactly the illegal words are refused by the decoder, issuing one raises ILLEGAL_CMD, and no
word acts as NOP except NOP itself. -/
def Obligations.IllegalWordsRaiseIllegalCmd : Prop :=
  (∀ w, decode w = none ↔ Illegal w) ∧
  (∀ w, Illegal w → RaisesIllegalCmd w) ∧
  (∀ w, decode w = some .nop ↔ w = 0)

/-- Words written out from the spec's encodings (examples of rules R110, R120, R125, R145, R170, R171, R173,
R211). -/
def Obligations.SpecExampleWordsDecode : Prop :=
  decode 0x0000000000000000 = some .nop ∧
  decode 0x00000000C1D7B651 = some (.encode ⟨37, 13, 15, 5, 3, 24, 0⟩) ∧
  decode 0x0000000000370072 = some (.parity 7 0x37) ∧
  decode 0x0000000000002573 = some (.bcd 7 37) ∧
  decode 0x0000000C00000014 = some (.syns 1 12) ∧
  decode 0x0000000C00000395 = some (.synm 57 12) ∧
  decode 0x0000000000000006 = some .abort ∧
  decode 0x490755A76F400007 = some (.ldfr 0x0490755A76F40000)

/-! ### Steps -/

/-- Rule R212 with rule R55: the turn that issues the word of a command runs the command; around it a step
only drops the turn and moves the model's `epoch`. -/
def Obligations.StepRunsTheIssuedCommand : Prop :=
  (∀ (s : State) (w : Word64) (i : Instr) (rest : List Turn),
    s.schedule = .issue w :: rest → decode w = some i → step s = exec i (taken rest s)) ∧
  (∀ (s : State) (nbits w : Nat) (i : Instr), decodeTableWord nbits w = some i →
    step (s.withFetchWord nbits w) = exec i (taken s.schedule s))

/-- Rules R175 and R230: from a state that obeys the invariants every step answers a next state: the SYN
step, reads and reset never fault, and a command's fault is a next state. -/
def Obligations.EveryStepCompletes : Prop :=
  ∀ s : State, s.Inv → ∃ t, step s = .next t ∧
    ((∀ w rest, s.schedule ≠ .issue w :: rest) → t.fault = true → s.fault = true)

/-- Rule R31: the reset state obeys the invariants. -/
def Obligations.ResetStateObeysTheInvariant : Prop := State.reset.Inv

/-- Rules R22, R25, R26: every step keeps the invariants. -/
def Obligations.EveryStepKeepsTheInvariant : Prop :=
  ∀ s t : State, s.Inv → step s = .next t → t.Inv

/-! ### Faults -/

/-- Rule R235: a command that faults records its cause and its word and empties both slots, and the state is
otherwise exactly the state before it. -/
def Obligations.FaultEntryIsPrecise : Prop :=
  ∀ (s t : State) (w : Word64) (rest : List Turn), s.fault = false → s.schedule = .issue w :: rest →
    step s = .next t → t.fault = true →
    t.cause ≠ .none ∧ t = faulted t.cause w (taken rest s)

/-- Rule R237: a command faults iff it meets a fault condition, and of those it meets it reports the one
with the smallest cause code. -/
def Obligations.SmallestCauseCodeWins : Prop :=
  ∀ (s t : State) (w : Word64) (rest : List Turn), s.fault = false → s.schedule = .issue w :: rest →
    step s = .next t →
    (t.fault = true ↔ ∃ c, Meets w s c) ∧
    (t.fault = true → Meets w s t.cause ∧ ∀ c, Meets w s c → t.cause.code.toNat ≤ c.code.toNat)

/-- Rule R236, with rule R239: while FAULT = 1 an issued command changes nothing, reads work, a turn of SYN
emits nothing, and only reset clears the fault; until then CAUSE and FCMD stay. -/
def Obligations.FaultIsFatalUntilReset : Prop :=
  (∀ (i : Instr) (s : State), s.fault = true → exec i s = .next s) ∧
  (∀ (s : State) (w : Word64) (rest : List Turn), s.fault = true → s.schedule = .issue w :: rest →
    step s = .next (taken rest s)) ∧
  (∀ (s : State) (rest : List Turn), s.Inv → s.fault = true → s.schedule = .syn :: rest →
    ∃ t, step s = .next t ∧ t.out = s.out) ∧
  (∀ (s : State) (n : Nat) (rest : List Turn), s.fault = true → s.schedule = .read n :: rest → n ≤ 4 →
    ∃ v, step s = .next { s with schedule := rest, reply := some v } ∧
      (n = 0 → v = .word32 s.status) ∧ (n = 4 → v = .word64 s.fcmd)) ∧
  (∀ s t : State, s.fault = true → step s = .next t → (∀ rest, s.schedule ≠ .reset :: rest) →
    t.fault = true ∧ t.cause = s.cause ∧ t.fcmd = s.fcmd)

/-! ### NOP -/

/-- Rule R211. -/
def Obligations.NopChangesNothing : Prop :=
  (∀ s : State, exec .nop s = .next s) ∧
  (∀ w, field w 0 4 = 0 → field w 4 60 ≠ 0 → RaisesIllegalCmd w)

/-! ### The encoder -/

/-- Rule R110: ENCODE in range writes the frame of its operands and FRAME_VALID and nothing else; out of
range it faults with RANGE; a set reserved bit faults with ILLEGAL_CMD. -/
def Obligations.EncodeWritesTheMinuteFrame : Prop :=
  (∀ (t : CivilTime) (s : State), s.fault = false → InRange t →
    ∃ f, IsFrameOf s.cfg t f ∧ exec (.encode t) s = .next { s with frame := f, frameValid := true }) ∧
  (∀ (t : CivilTime) (s : State), s.fault = false → ¬ InRange t →
    exec (.encode t) s = .next (faulted .range (encode (.encode t)) s)) ∧
  (∀ w, field w 0 4 = 1 → field w 35 29 ≠ 0 → RaisesIllegalCmd w)

/-- Rules R102, R111: once the range check passes every field fits its width, and each field of the frame
decodes back to its operand. -/
def Obligations.EncodeFieldsDecodeBack : Prop :=
  ∀ (t : CivilTime) (s u : State), s.fault = false → InRange t → exec (.encode t) s = .next u →
    fits t.min.toNat 7 ∧ fits t.hour.toNat 6 ∧ fits t.day.toNat 6 ∧ fits t.wday.toNat 3 ∧
    fits t.mon.toNat 5 ∧ fits t.year.toNat 8 ∧
    (u.frame.extractLsb' 21 4).toNat + 10 * (u.frame.extractLsb' 25 3).toNat = t.min.toNat ∧
    (u.frame.extractLsb' 29 4).toNat + 10 * (u.frame.extractLsb' 33 2).toNat = t.hour.toNat ∧
    (u.frame.extractLsb' 36 4).toNat + 10 * (u.frame.extractLsb' 40 2).toNat = t.day.toNat ∧
    (u.frame.extractLsb' 42 3).toNat = t.wday.toNat ∧
    (u.frame.extractLsb' 45 4).toNat + 10 * (u.frame.extractLsb' 49 1).toNat = t.mon.toNat ∧
    (u.frame.extractLsb' 50 4).toNat + 10 * (u.frame.extractLsb' 54 4).toNat = t.year.toNat

/-- Rule R112: the invariants of every ENCODE frame. -/
def Obligations.EncodeFramesAreWellFormedFrames : Prop :=
  ∀ (t : CivilTime) (s u : State), s.fault = false → InRange t → exec (.encode t) s = .next u →
    (u.frame.extractLsb' 17 1).toNat + (u.frame.extractLsb' 18 1).toNat = 1 ∧
    u.frame.getLsbD 19 = false ∧ u.frame.getLsbD 20 = true ∧
    ones (u.frame.extractLsb' 21 8) 8 % 2 = 0 ∧
    ones (u.frame.extractLsb' 29 7) 7 % 2 = 0 ∧
    ones (u.frame.extractLsb' 36 23) 23 % 2 = 0 ∧
    (frameSymbols u.frame 0).length = 60 ∧
    (∀ k < 60, (frameSymbols u.frame 0)[k]? = some .term ↔ k = 59)

/-- Rule R114: ENCODE's frame depends on its operands and PREAMBLE alone. -/
def Obligations.EncodeDependsOnOperandsOnly : Prop :=
  ∀ (t : CivilTime) (s s' u u' : State), s.fault = false → s'.fault = false → s.cfg = s'.cfg →
    InRange t → exec (.encode t) s = .next u → exec (.encode t) s' = .next u' →
    u.frame = u'.frame ∧ u.cur = s.cur ∧ u.next = s.next ∧ u.result = s.result ∧ u.out = s.out

/-- Rule R104: the symbol function; every frame has exactly one terminator, at its last position. -/
def Obligations.FrameSymbolsFollowTheData : Prop :=
  (∀ f, frameSymbol f 59 = .term) ∧
  (∀ f k, k < 59 → (f.getLsbD k = true → frameSymbol f k = .one) ∧
    (f.getLsbD k = false → frameSymbol f k = .zero)) ∧
  (∀ f start, start ≤ 59 → (frameSymbols f start).length = 60 - start ∧
    ∀ j < 60 - start, (frameSymbols f start)[j]? = some (frameSymbol f (start + j)))

/-- Rule R102, the decoding law of the BCD field. -/
def Obligations.BcdFieldDecodesBack : Prop :=
  ∀ v w : Nat, 1 ≤ w → fits v w →
    (4 < w → bcdField v w % 16 + 10 * (bcdField v w / 16 % 2 ^ (w - 4)) = v) ∧
    (w ≤ 4 → bcdField v w % 2 ^ w = v)

/-- Rule R120: BCD writes the field into RESULT and sets RESULT_VALID, and nothing else; an illegal width
faults before a value that does not fit; a set reserved bit faults with ILLEGAL_CMD. -/
def Obligations.BcdWritesTheField : Prop :=
  (∀ (w : BitVec 4) (v : BitVec 8) (s : State), s.fault = false → 1 ≤ w.toNat → w.toNat ≤ 8 →
    fits v.toNat w.toNat →
    exec (.bcd w v) s =
      .next { s with result := BitVec.ofNat 32 (bcdField v.toNat w.toNat), resultValid := true }) ∧
  (∀ (w : BitVec 4) (v : BitVec 8) (s : State), s.fault = false → (w.toNat = 0 ∨ 8 < w.toNat) →
    exec (.bcd w v) s = .next (faulted .illegalOperand (encode (.bcd w v)) s)) ∧
  (∀ (w : BitVec 4) (v : BitVec 8) (s : State), s.fault = false → 1 ≤ w.toNat → w.toNat ≤ 8 →
    ¬ fits v.toNat w.toNat →
    exec (.bcd w v) s = .next (faulted .range (encode (.bcd w v)) s)) ∧
  (∀ w, field w 0 4 = 3 → field w 16 48 ≠ 0 → RaisesIllegalCmd w)

/-- Rule R121: packed BCD above four bits, plain binary up to four, 0 at every width, and the largest value
each width takes. -/
def Obligations.BcdCornerCases : Prop :=
  (∀ v w : Nat, 4 < w → bcdField v w = 16 * (v / 10) + v % 10) ∧
  (∀ v w : Nat, w ≤ 4 → bcdField v w = v) ∧
  (∀ w : Nat, bcdField 0 w = 0) ∧
  bcdField 159 8 = 0xF9 ∧
  (∀ v : Nat, (fits v 1 ↔ v ≤ 1) ∧ (fits v 2 ↔ v ≤ 3) ∧ (fits v 3 ↔ v ≤ 7) ∧ (fits v 4 ↔ v ≤ 15) ∧
    (fits v 5 ↔ v ≤ 19) ∧ (fits v 6 ↔ v ≤ 39) ∧ (fits v 7 ↔ v ≤ 79) ∧ (fits v 8 ↔ v ≤ 159))

/-- Rule R125: LDFR writes FRAME and FRAME_VALID and nothing else; its one fault is the reserved bit. -/
def Obligations.LdfrLoadsTheFrame : Prop :=
  (∀ (fr : FrameData) (s : State), s.fault = false →
    exec (.ldfr fr) s = .next { s with frame := fr, frameValid := true }) ∧
  (∀ w, field w 0 4 = 7 → field w 63 1 ≠ 0 → RaisesIllegalCmd w)

/-! ### Parity -/

/-- Rule R145: PARITY writes the parity bit into RESULT and sets RESULT_VALID, and nothing else; a length
above 48 faults; a set reserved bit faults with ILLEGAL_CMD. -/
def Obligations.ParityWritesTheBit : Prop :=
  (∀ (len : BitVec 6) (data : BitVec 48) (s : State), s.fault = false → len.toNat ≤ 48 →
    exec (.parity len data) s =
      .next { s with result := BitVec.ofNat 32 (ones data len.toNat % 2), resultValid := true }) ∧
  (∀ (len : BitVec 6) (data : BitVec 48) (s : State), s.fault = false → 48 < len.toNat →
    exec (.parity len data) s = .next (faulted .illegalOperand (encode (.parity len data)) s)) ∧
  (∀ w, field w 0 4 = 2 → field w 10 6 ≠ 0 → RaisesIllegalCmd w)

/-- Rules R141, R142: a string followed by its parity bit has an even number of ones; the parity of a
concatenation is the exclusive or of the parities, and so is the date parity of its four fields. -/
def Obligations.ParityLaws : Prop :=
  (∀ (n : Nat) (v : BitVec n), ones (parity v n ++ v) (n + 1) % 2 = 0) ∧
  (∀ (n m : Nat) (a : BitVec n) (b : BitVec m), parity (b ++ a) (n + m) = parity a n ^^^ parity b m) ∧
  (∀ t : CivilTime, parity (dateBits t) 22 =
    parity (bcdBits 6 t.day.toNat) 6 ^^^ parity (bcdBits 3 t.wday.toNat) 3
      ^^^ parity (bcdBits 5 t.mon.toNat) 5 ^^^ parity (bcdBits 8 t.year.toNat) 8)

/-- Rule R146: the empty string has parity 0, bits from the length up are ignored, all ones at the longest
lengths, RESULT[31:1] = 0, and PARITY over FRAME[57:36] reproduces FRAME[58] of every ENCODE frame. -/
def Obligations.ParityCornerCases : Prop :=
  (∀ data : BitVec 48, parity data 0 = 0) ∧
  (∀ (len : Nat) (d d' : BitVec 48), (∀ k < len, d.getLsbD k = d'.getLsbD k) →
    parity d len = parity d' len) ∧
  parity (BitVec.allOnes 48) 48 = 0 ∧ parity (BitVec.allOnes 48) 47 = 1 ∧
  (∀ (len : BitVec 6) (data : BitVec 48) (s u : State), s.fault = false → len.toNat ≤ 48 →
    exec (.parity len data) s = .next u → u.result.extractLsb' 1 31 = 0) ∧
  (∀ (t : CivilTime) (s u v : State), s.fault = false → InRange t → exec (.encode t) s = .next u →
    exec (.parity 22 ((u.frame.extractLsb' 36 22).setWidth 48)) u = .next v →
    v.result = (u.frame.extractLsb' 58 1).setWidth 32)

/-! ### Registers -/

/-- Rule R22's fields of STATUS, with rule R230's codes. -/
def Obligations.StatusShowsTheFlags : Prop :=
  (∀ s : State, s.status.getLsbD 0 = s.fault ∧ s.status.extractLsb' 1 4 = s.cause.code ∧
    s.status.getLsbD 5 = s.cur.isSome ∧ s.status.getLsbD 6 = s.next.isSome ∧
    s.status.getLsbD 7 = s.resultValid ∧ s.status.getLsbD 8 = s.frameValid ∧
    s.status.extractLsb' 9 23 = 0) ∧
  Cause.none.code = 0 ∧ Cause.illegalCmd.code = 1 ∧ Cause.illegalOperand.code = 2 ∧
  Cause.range.code = 3 ∧ Cause.noFrame.code = 4 ∧ Cause.overrun.code = 5

/-- Rule R27: POS. -/
def Obligations.PosShowsThePosition : Prop :=
  (∀ s : State, s.cur = none → s.pos = 0) ∧
  (∀ (s : State) (c : Playing), s.Inv → s.cur = some c →
    (s.pos.extractLsb' 0 32).toNat = c.pi ∧
    (s.pos.extractLsb' 32 6).toNat = c.slot.base.toNat + c.ps ∧
    c.slot.base.toNat + c.ps ≤ 59 ∧
    s.pos.extractLsb' 38 26 = 0)

/-- Rule R213: what a read answers, and that it changes nothing in the block. For an unwritten RESULT or
FRAME and an unimplemented number it answers some value, under no law. That this value has 64 bits for an
unimplemented number is the model's choice (assumption 6: the spec's draw has no width), and so is where the
answer stands (assumption 13: the field `reply`). -/
def Obligations.ReadsAnswerTheRegisters : Prop :=
  ∀ (s : State) (n : Nat) (rest : List Turn), s.schedule = .read n :: rest →
    ∃ v k, step s = .next { s with schedule := rest, reply := some v, reads := k } ∧
      (n = 0 → v = .word32 s.status) ∧
      (n = 1 → ∃ x, v = .word32 x ∧ (s.resultValid = true → x = s.result)) ∧
      (n = 2 → ∃ x, v = .word64 x ∧ (s.frameValid = true → x = s.frame.setWidth 64)) ∧
      (n = 3 → v = .word64 s.pos) ∧
      (n = 4 → v = .word64 s.fcmd) ∧
      (5 ≤ n → ∃ x, v = .word64 x)

/-- Rule R54: two reads of an implemented register with no step between them return the same value, that of an
unwritten one too (assumption 5). -/
def Obligations.RepeatedReadsAgree : Prop :=
  ∀ (s t u : State) (n : Nat) (rest : List Turn), n ≤ 4 → s.schedule = .read n :: .read n :: rest →
    step s = .next t → step t = .next u → u.reply = t.reply ∧ t.reply ≠ none

/-- Rules R31, R260, R261: reset puts every piece of the block's state into its reset value, whatever the
state, and afterwards SYN has no step. What the hidden storage of RESULT and FRAME holds is not claimed:
both read as unwritten (the clauses on RESULT_VALID and FRAME_VALID). That the schedule stays, and that a step
without an agent is an unchanged state, are the model's choices (assumptions 14, 15). -/
def Obligations.ResetClearsTheBlock : Prop :=
  ∀ (s : State) (rest : List Turn), s.schedule = .reset :: rest →
    ∃ t, step s = .next t ∧ t.status = 0 ∧ t.resultValid = false ∧ t.frameValid = false ∧ t.fcmd = 0 ∧
      t.cur = none ∧ t.next = none ∧ t.out = [] ∧ t.pos = 0 ∧ t.cfg = s.cfg ∧ t.schedule = rest ∧
      (∀ later, rest = .syn :: later → step t = .next { t with schedule := later })

/-- Rules R23, R24, R25, R29 and R260: only BCD and PARITY write RESULT, only ENCODE and LDFR write FRAME,
only a fault writes FCMD, only SYN appends to OUT, and it appends one sample; reset apart, and nothing at
all changes the configuration. -/
def Obligations.OnlyTheNamedAgentsWriteEachRegister : Prop :=
  ∀ s t : State, step s = .next t →
    t.cfg = s.cfg ∧
    ((∀ rest, s.schedule ≠ .reset :: rest) →
      ((t.result ≠ s.result ∨ t.resultValid ≠ s.resultValid) →
        ∃ w rest, s.schedule = .issue w :: rest ∧
          ((∃ n v, decode w = some (.bcd n v)) ∨ (∃ len d, decode w = some (.parity len d)))) ∧
      ((t.frame ≠ s.frame ∨ t.frameValid ≠ s.frameValid) →
        ∃ w rest, s.schedule = .issue w :: rest ∧
          ((∃ c, decode w = some (.encode c)) ∨ (∃ fr, decode w = some (.ldfr fr)))) ∧
      (t.fcmd ≠ s.fcmd → s.fault = false ∧ t.fault = true) ∧
      (t.out ≠ s.out →
        (s.schedule = [] ∨ ∃ rest, s.schedule = .syn :: rest) ∧ ∃ x, t.out = s.out ++ [x]))

/-- Rules R29, R210: the host consumes OUT in order, one sample at a time, and OUT itself does not change. The
counter, and that nothing happens with no sample left, are the model's choice (assumption 12). -/
def Obligations.ConsumeTakesTheNextSample : Prop :=
  (∀ (s : State) (x : Sample) (rest : List Turn), s.schedule = .consume :: rest →
    s.out[s.consumed]? = some x →
    step s = .next { taken rest s with consumed := s.consumed + 1, reply := some (.sample x) }) ∧
  (∀ (s : State) (rest : List Turn), s.schedule = .consume :: rest → s.out.length ≤ s.consumed →
    step s = .next (taken rest s))

/-! ### The sample function -/

/-- Rule R160: QSIN is the floor of the exact real formula, and a sample stands for 3·q/sr. -/
def Obligations.QsinIsTheFloorOfTheRealSine : Prop :=
  (∀ m sr : Nat, 1 ≤ sr → sr < 2 ^ 32 → m < sr →
    qsin m sr = ⌊Real.sin (2 * Real.pi * m / sr) * sr / 3⌋) ∧
  (∀ x : Sample, x.value = 3 * x.q.toInt / x.sr.toNat)

/-- Rule R165 (a), (b), (d): the range of QSIN, its zero, and its antisymmetry up to 1. -/
def Obligations.QsinRangeAndAntisymmetry : Prop :=
  ∀ m sr : Nat, 1 ≤ sr → sr < 2 ^ 32 → m < sr →
    -(((sr : Int) + 2) / 3) ≤ qsin m sr ∧ qsin m sr ≤ (sr : Int) / 3 ∧ qsin 0 sr = 0 ∧
    (0 < m → ∃ c : Int, qsin (sr - m) sr = -qsin m sr - c ∧
      (c = 0 ∨ c = 1) ∧
      (c = 0 ↔ ∃ z : Int, Real.sin (2 * Real.pi * m / sr) * sr / 3 = z))

/-- Rules R29, R160: the sample code fits a signed 32-bit integer, so OUT holds it exactly. -/
def Obligations.SampleCodesFitTheirRegister : Prop :=
  ∀ (sym : Symbol) (i : Nat) (sr : Word32), sr ≠ 0 →
    (sampleAt sym i sr).q.toInt = sampleCode sym i sr.toNat ∧ (sampleAt sym i sr).sr = sr

/-- Rules R161, R163, R164: a second has exactly SR samples; its first ceil(k·SR/10) are silent, with code 0,
and every later one is QSIN of its phase. -/
def Obligations.SecondsBeginWithTheirNotch : Prop :=
  ∀ (sym : Symbol) (sr : Word32), (wave sym sr).length = sr.toNat ∧
    ∀ i < sr.toNat, ∃ x, (wave sym sr)[i]? = some x ∧ x.sr = sr ∧
      (i < ((match sym with
            | .zero => 1
            | .one => 2
            | .term => 10) * sr.toNat + 9) / 10 → x.q = 0) ∧
      (((match sym with
            | .zero => 1
            | .one => 2
            | .term => 10) * sr.toNat + 9) / 10 ≤ i →
        x.q = BitVec.ofInt 32 (qsin (15500 * i % sr.toNat) sr.toNat))

/-- Rules R162, R166: the phase numerator starts at 0, advances by the carrier at every sample, and is back
at 0 after a second. -/
def Obligations.PhaseIsContinuous : Prop :=
  ∀ sr : Nat, 1 ≤ sr → phase 0 sr = 0 ∧ phase sr sr = 0 ∧
    ∀ i, phase (i + 1) sr = (phase i sr + 15500) % sr

/-- Rule R167: where SR divides twice the carrier, every sample of every symbol is 0. -/
def Obligations.RatesThatDivideTheCarrierAreSilent : Prop :=
  ∀ (sym : Symbol) (sr : Word32), sr.toNat ∣ 31000 → ∀ x ∈ wave sym sr, x.q = 0

/-! ### Synthesis -/

/-- Rule R170: SYNS with a symbol and a rate is accepted: into CUR from its start, else into NEXT, else
OVERRUN; SYM = 3 and SR = 0 fault before that. -/
def Obligations.SynsQueuesOneSecond : Prop :=
  (∀ (sym : BitVec 2) (sr : Word32) (y : Symbol) (s : State), s.fault = false → sr.toNat ≠ 0 →
    ((sym = 0 ∧ y = .zero) ∨ (sym = 1 ∧ y = .one) ∨ (sym = 2 ∧ y = .term)) →
    Accepted { syms := [y], base := 0, sr := sr } (encode (.syns sym sr)) s (exec (.syns sym sr) s)) ∧
  (∀ (sym : BitVec 2) (sr : Word32) (s : State), s.fault = false → sym ≠ 3 → sr.toNat = 0 →
    exec (.syns sym sr) s = .next (faulted .range (encode (.syns sym sr)) s)) ∧
  (∀ w, field w 0 4 = 4 → (field w 6 26 ≠ 0 ∨ field w 4 2 = 3) → RaisesIllegalCmd w)

/-- Rule R171: SYNM with a start, a rate and a frame is accepted with a copy of the frame's symbols from
START to the terminator; RANGE comes before NO_FRAME, and that before OVERRUN. -/
def Obligations.SynmQueuesTheMinute : Prop :=
  (∀ (start : BitVec 6) (sr : Word32) (s : State), s.fault = false → start.toNat ≤ 59 → sr.toNat ≠ 0 →
    s.frameValid = true →
    ∃ e, Accepted e (encode (.synm start sr)) s (exec (.synm start sr) s) ∧
      e.base = start ∧ e.sr = sr ∧ e.syms.length = 60 - start.toNat ∧
      ∀ j < 60 - start.toNat, e.syms[j]? =
        some (if start.toNat + j = 59 then .term
          else if s.frame.getLsbD (start.toNat + j) then .one else .zero)) ∧
  (∀ (start : BitVec 6) (sr : Word32) (s : State), s.fault = false →
    (59 < start.toNat ∨ sr.toNat = 0) →
    exec (.synm start sr) s = .next (faulted .range (encode (.synm start sr)) s)) ∧
  (∀ (start : BitVec 6) (sr : Word32) (s : State), s.fault = false → start.toNat ≤ 59 → sr.toNat ≠ 0 →
    s.frameValid = false →
    exec (.synm start sr) s = .next (faulted .noFrame (encode (.synm start sr)) s)) ∧
  (∀ w, field w 0 4 = 5 → field w 10 22 ≠ 0 → RaisesIllegalCmd w)

/-- Rule R173: ABORT empties both slots and changes nothing else; a turn of SYN right after it emits no
sample; a set reserved bit faults with ILLEGAL_CMD. -/
def Obligations.AbortEmptiesBothSlots : Prop :=
  (∀ s : State, s.fault = false → exec .abort s = .next { s with cur := none, next := none }) ∧
  (∀ (s t u : State), s.fault = false → exec .abort s = .next t → synTurn t = .next u → u.out = t.out) ∧
  (∀ w, field w 0 4 = 6 → field w 4 60 ≠ 0 → RaisesIllegalCmd w)

/-- Rules R57, R114, R173, R235: a command that does not fault and is no synthesis command or ABORT leaves
the slots alone; no command at all changes OUT, the host's place in it, its reply or the configuration; a
synthesis command or ABORT never changes FRAME, RESULT or their valid flags, even when it faults. -/
def Obligations.CommandsLeaveTheRestUnchanged : Prop :=
  ∀ (i : Instr) (s t : State), exec i s = .next t →
    t.out = s.out ∧ t.consumed = s.consumed ∧ t.reply = s.reply ∧ t.schedule = s.schedule ∧
    t.cfg = s.cfg ∧ t.epoch = s.epoch ∧ t.reads = s.reads ∧
    (t.fault = false → t.cause = s.cause ∧ t.fcmd = s.fcmd ∧
      ((∀ sym sr, i ≠ .syns sym sr) → (∀ start sr, i ≠ .synm start sr) → i ≠ .abort →
        t.cur = s.cur ∧ t.next = s.next)) ∧
    ((∃ sym sr, i = .syns sym sr) ∨ (∃ start sr, i = .synm start sr) ∨ i = .abort ∨ i = .nop →
      t.frame = s.frame ∧ t.frameValid = s.frameValid ∧ t.result = s.result ∧
      t.resultValid = s.resultValid) ∧
    ((∃ n v, i = .bcd n v) ∨ (∃ len d, i = .parity len d) →
      t.frame = s.frame ∧ t.frameValid = s.frameValid) ∧
    ((∃ c, i = .encode c) ∨ (∃ fr, i = .ldfr fr) →
      t.result = s.result ∧ t.resultValid = s.resultValid)

/-- Rule R175: a SYN step, scheduled or by the empty schedule (assumption 1), emits the sample of CUR's
position and moves the position on; nothing else changes but, after CUR's last sample, the slots by the swap
of rule R176, and the model's own schedule and `epoch`. -/
def Obligations.SynStepEmitsOneSample : Prop :=
  ∀ (s : State) (c : Playing) (sym : Symbol), s.SynMoves 1 → s.cur = some c →
    c.slot.syms[c.ps]? = some sym → c.pi < c.slot.sr.toNat →
    ∃ t, step s = .next t ∧
      t.out = s.out ++ [sampleAt sym c.pi c.slot.sr] ∧
      t = { s with out := t.out, cur := t.cur, next := t.next, schedule := s.schedule.tail, epoch := s.epoch + 1 } ∧
      (c.pi + 1 < c.slot.sr.toNat → t.cur = some { c with pi := c.pi + 1 } ∧ t.next = s.next) ∧
      (c.pi + 1 = c.slot.sr.toNat → c.ps + 1 < c.slot.syms.length →
        t.cur = some { c with ps := c.ps + 1, pi := 0 } ∧ t.next = s.next) ∧
      (c.pi + 1 = c.slot.sr.toNat → c.ps + 1 = c.slot.syms.length →
        t.cur = s.next.map (fun e => { slot := e, ps := 0, pi := 0 }) ∧ t.next = none)

/-- Rule R176: the step that emits CUR's last sample has NEXT's record in CUR and NEXT empty (both empty if
NEXT was). With a record there SYN's very next step emits that record's first sample: at once (k = 0), or
after k turns of the host with no ABORT, fault or reset among them. -/
def Obligations.SwapLeavesNoGap : Prop :=
  ∀ (s : State) (c : Playing), s.Inv → s.SynMoves 1 → s.cur = some c →
    c.ps + 1 = c.slot.syms.length → c.pi + 1 = c.slot.sr.toNat →
    ∃ t x, step s = .next t ∧ t.out = s.out ++ [x] ∧ t.next = none ∧ t.schedule = s.schedule.tail ∧
      (s.next = none → t.cur = none) ∧
      ∀ e, s.next = some e → t.cur = some { slot := e, ps := 0, pi := 0 } ∧
        ∃ y, e.syms[0]? = some y ∧
          ∀ (k : Nat) (v : State), k ≤ t.schedule.length → (∀ turn ∈ t.schedule.take k, HostKeepsSlots turn) →
            Machine.run k t = .next v → v.fault = false → v.SynMoves 1 →
            ∃ u, step v = .next u ∧ u.out = s.out ++ [x, sampleAt y 0 e.sr]

/-- Rules R175, R178: with CUR empty SYN has no step: nothing is emitted, no fault is raised, no flag is
set. That the state then stays as it is is the model's choice (assumption 15). -/
def Obligations.IdleSynthesizerDoesNothing : Prop :=
  (∀ s : State, s.cur = none → s.schedule = [] → step s = .next s) ∧
  (∀ (s : State) (rest : List Turn), s.cur = none → s.schedule = .syn :: rest →
    step s = .next { s with schedule := rest })

/-- Rule R172: the samples a slot emits, from its start to its end, are its seconds in order; for SYNM's
record they are the minute from START on, (60 - START)·SR of them, the full minute less its first
START·SR samples. The slot drains because the next turns are SYN's: scheduled, or by the empty schedule, where
SYN moves as long as it can (the weak fairness of rule R275, assumption 1). -/
def Obligations.SlotsEmitTheirWaveform : Prop :=
  (∀ (s : State) (e : Slot), s.SynMoves (e.syms.length * e.sr.toNat) →
    s.cur = some { slot := e, ps := 0, pi := 0 } → e.Ok →
    ∃ t, Machine.run (e.syms.length * e.sr.toNat) s = .next t ∧
      t.out = s.out ++ (e.syms.map fun y => wave y e.sr).flatten ∧
      t.cur = s.next.map (fun e' => { slot := e', ps := 0, pi := 0 }) ∧ t.next = none ∧
      t.fault = s.fault ∧ t.schedule = s.schedule.drop (e.syms.length * e.sr.toNat)) ∧
  (∀ (f : FrameData) (start : BitVec 6) (sr : Word32), start.toNat ≤ 59 →
    (minuteSlot f start sr).waveform =
      (List.range' start.toNat (60 - start.toNat)).flatMap (fun k => wave (frameSymbol f k) sr) ∧
    (minuteSlot f start sr).waveform.length = (60 - start.toNat) * sr.toNat ∧
    (minuteSlot f start sr).waveform =
      (minuteSlot f 0 sr).waveform.drop (start.toNat * sr.toNat))

/-- Rule R177, for every interleaving: at each step without ABORT, fault or reset the samples emitted,
followed by the samples to come, grow by exactly the waveform of the synthesis command accepted in that
step, if any. So no sample is dropped, repeated or inserted. -/
def Obligations.NoSampleIsDroppedRepeatedOrInserted : Prop :=
  (∀ (s t : State), s.Inv → s.schedule = [] → step s = .next t →
    t.out ++ t.pending = s.out ++ s.pending) ∧
  (∀ (s t : State) (turn : Turn) (rest : List Turn), s.Inv → s.schedule = turn :: rest →
    turn ≠ .reset → turn ≠ .issue (encode .abort) → step s = .next t → t.fault = false →
    t.out ++ t.pending = s.out ++ s.pending ++ queued turn s)

/-- Rule R180: the samples SYN emits depend on the slots alone: two states with equal slots emit equal
samples in k turns of SYN, scheduled or by the empty schedule (assumption 1), whatever else they hold. -/
def Obligations.SamplesDependOnTheSlotsOnly : Prop :=
  ∀ (k : Nat) (s s' t t' : State), s.SynMoves k → s'.SynMoves k → s.cur = s'.cur →
    s.next = s'.next →
    Machine.run k s = .next t → Machine.run k s' = .next t' →
    ∃ xs, t.out = s.out ++ xs ∧ t'.out = s'.out ++ xs

/-! ### Notation and bus -/

/-- Rule R215: a command line assembles to exactly the word of its command, which decodes to it. A line with
an operand of 2^width or more assembles to nothing; with operands that fit, its command holds exactly those,
and a raw word is the word written. Every command has a line; a host action has no word. -/
def Obligations.AssembledWordsDecode : Prop :=
  (∀ (l : Asm.Line) (i : Instr), l.command = some i →
    ∃ w, l.word = some w ∧ l.turns = some [.issue w] ∧ decode w = some i) ∧
  (∀ l : Asm.Line, (∃ p ∈ operandWidths l, 2 ^ p.1 ≤ p.2) → l.word = none ∧ l.turns = none) ∧
  (∀ l : Asm.Line, (∀ p ∈ operandWidths l, p.2 < 2 ^ p.1) → HoldsOperands l l.command) ∧
  (∀ v : Nat, v < 2 ^ 64 → ∃ w, (Asm.Line.word64 v).word = some w ∧ w.toNat = v ∧
    (Asm.Line.word64 v).turns = some [.issue w]) ∧
  (∀ n v : Nat, (2 ^ n ≤ v → Asm.fit n v = none) ∧
    (v < 2 ^ n → ∃ b, Asm.fit n v = some b ∧ b.toNat = v)) ∧
  (∀ n : Nat, (Asm.Line.read n).word = none ∧ Asm.Line.reset.word = none ∧ (Asm.Line.run n).word = none) ∧
  (∀ i : Instr, i.wellFormed = true → ∃ l : Asm.Line, l.command = some i)

/-- Rule R52: in either byte order of the model the platform delivers the word whole. That the order is one of
these two, and the bus functions themselves, are the model's choice (assumption 16): R52 leaves the order open
and makes whole delivery the platform's duty. -/
def Obligations.BusDeliversTheWordWhole : Prop :=
  ∀ (order : ByteOrder) (w : Word64), wordOfBus order (busBytes order w) = some w ∧
    (busBytes order w).length = 8
end

