-- ==== Sys2Proof/Laws/Bits.lean ====
section
/-! SUPPORT. Fields of concatenations, and concatenations of fields: what decoding, encoding and the minute
frame are made of. -/

namespace Sys2Proof

theorem extract_append_above {a b : Nat} (x : BitVec a) (y : BitVec b) {lo n : Nat} (h : b ≤ lo) :
    (x ++ y).extractLsb' lo n = x.extractLsb' (lo - b) n := by
  apply BitVec.eq_of_getLsbD_eq; intro k _
  simp only [BitVec.getLsbD_extractLsb', BitVec.getLsbD_append]
  rw [if_neg (by omega), show lo + k - b = lo - b + k by omega]

theorem extract_append_within {a b : Nat} (x : BitVec a) (y : BitVec b) {lo n : Nat} (h : lo + n ≤ b) :
    (x ++ y).extractLsb' lo n = y.extractLsb' lo n := by
  apply BitVec.eq_of_getLsbD_eq; intro k _
  simp only [BitVec.getLsbD_extractLsb', BitVec.getLsbD_append]
  rw [if_pos (by omega)]

theorem extract_all {n : Nat} (x : BitVec n) : x.extractLsb' 0 n = x := by
  apply BitVec.eq_of_getLsbD_eq; intro k hk
  simp [hk]

/-- Neighbouring fields of a word make one field. -/
theorem append_fields {n : Nat} (w : BitVec n) {hi lo a b : Nat} (h : hi = lo + b) :
    w.extractLsb' hi a ++ w.extractLsb' lo b = w.extractLsb' lo (a + b) := by
  subst h
  apply BitVec.eq_of_getLsbD_eq; intro k hk
  simp only [BitVec.getLsbD_extractLsb', BitVec.getLsbD_append]
  split
  · simp_all
  · rw [show lo + b + (k - b) = lo + k by omega, show decide (k - b < a) = decide (k < a + b) by simp; omega]

/-- A field of a field. -/
theorem extract_extract {n : Nat} (w : BitVec n) {lo a lo' b : Nat} (h : lo' + b ≤ a) :
    (w.extractLsb' lo a).extractLsb' lo' b = w.extractLsb' (lo + lo') b := by
  apply BitVec.eq_of_getLsbD_eq; intro k hk
  simp only [BitVec.getLsbD_extractLsb', hk, decide_true, Bool.true_and]
  rw [show decide (lo' + k < a) = true by simp; omega, Bool.true_and, Nat.add_assoc]

/-- A field of a masked word. -/
theorem extract_and {n : Nat} (w m : BitVec n) (lo a : Nat) :
    (w &&& m).extractLsb' lo a = w.extractLsb' lo a &&& m.extractLsb' lo a := by
  apply BitVec.eq_of_getLsbD_eq; intro k hk
  simp [hk]

/-! ### What `decode` reads, case by case -/

/-- What each command's word must be. -/
theorem decode_eq_some {w : Word64} {i : Instr} (h : decode w = some i) :
    match i with
    | .nop => field w 0 4 = 0 ∧ field w 4 60 = 0
    | .encode t => field w 0 4 = 1 ∧ field w 35 29 = 0 ∧ t = decodeTime w
    | .parity len d => field w 0 4 = 2 ∧ field w 10 6 = 0 ∧ len = field w 4 6 ∧ d = field w 16 48
    | .bcd n v => field w 0 4 = 3 ∧ field w 16 48 = 0 ∧ n = field w 4 4 ∧ v = field w 8 8
    | .syns sym sr => field w 0 4 = 4 ∧ field w 6 26 = 0 ∧ sym ≠ 3 ∧ sym = field w 4 2 ∧ sr = field w 32 32
    | .synm start sr => field w 0 4 = 5 ∧ field w 10 22 = 0 ∧ start = field w 4 6 ∧ sr = field w 32 32
    | .abort => field w 0 4 = 6 ∧ field w 4 60 = 0
    | .ldfr fr => field w 0 4 = 7 ∧ field w 63 1 = 0 ∧ fr = field w 4 59 := by
  have op : ∀ k : Nat, k < 16 → (field w 0 4).toNat = k → field w 0 4 = BitVec.ofNat 4 k := by
    intro k hk h
    apply BitVec.eq_of_toNat_eq
    rw [h, BitVec.toNat_ofNat, Nat.mod_eq_of_lt hk]
  unfold decode at h
  split at h
  all_goals first
    | (split at h
       · rename_i h0 h1
         cases h
         first
           | exact ⟨op _ (by decide) h0, h1⟩
           | exact ⟨op _ (by decide) h0, h1, rfl⟩
           | exact ⟨op _ (by decide) h0, h1, rfl, rfl⟩
           | exact ⟨op _ (by decide) h0, h1.1, h1.2, rfl, rfl⟩
       · cases h)
    | cases h

/-- Only the word of ABORT decodes to it. -/
theorem decode_abort {w : Word64} (h : decode w = some .abort) : w = encode .abort := by
  obtain ⟨h0, h1⟩ := decode_eq_some h
  have hw : field w 4 60 ++ field w 0 4 = w := by
    unfold field
    rw [append_fields w (by decide)]
    exact extract_all w
  rw [← hw, h0, h1]; rfl

end Sys2Proof
end

