-- ==== Sys2Proof/Laws/Operands.lean ====
section
/-! SUPPORT. Counting the ones of a string (41_parity.md rules R140 to R142). -/

namespace Sys2Proof.Machine

/-- A count of the low bits of a concatenation sees its right part only. -/
theorem ones_append_low {n m : Nat} (a : BitVec n) (b : BitVec m) {len : Nat} (h : len ≤ n) :
    ones (b ++ a) len = ones a len := by
  induction len with
  | zero => rfl
  | succ len ih =>
    simp only [ones, ih (by omega), BitVec.getLsbD_append]
    rw [if_pos (by omega)]

/-- The count of a concatenation is the sum of the counts. -/
theorem ones_append {n m : Nat} (a : BitVec n) (b : BitVec m) (len : Nat) :
    ones (b ++ a) (n + len) = ones a n + ones b len := by
  induction len with
  | zero => simp [ones_append_low, ones]
  | succ len ih =>
    rw [← Nat.add_assoc]
    simp only [ones, ih, BitVec.getLsbD_append]
    rw [if_neg (by omega), show n + len - n = len by omega]; omega

theorem ones_one (b : BitVec 1) : ones b 1 = b.toNat := by revert b; decide

/-- Only the counted bits matter, whatever the widths. -/
theorem ones_congr {n m : Nat} (a : BitVec n) (b : BitVec m) (len : Nat)
    (h : ∀ k < len, a.getLsbD k = b.getLsbD k) : ones a len = ones b len := by
  induction len with
  | zero => rfl
  | succ len ih => simp only [ones, ih (fun k hk => h k (by omega)), h len (by omega)]

theorem parity_toNat {n : Nat} (v : BitVec n) (len : Nat) : (parity v len).toNat = ones v len % 2 := by
  simp [parity]

end Sys2Proof.Machine
end

