-- ==== Sys2Proof/Laws/State.lean ====
section
/-! SUPPORT. One lemma per field of State for each whole-state update, all by rfl, so that no later proof
unfolds a record update. -/

namespace Sys2Proof.Machine

/-! `raiseFault` -/

@[simp] theorem raiseFault_fault (c : Cause) (cmd : Word64) (s : State) : (raiseFault c cmd s).fault = true := rfl
@[simp] theorem raiseFault_cause (c : Cause) (cmd : Word64) (s : State) : (raiseFault c cmd s).cause = c := rfl
@[simp] theorem raiseFault_resultValid (c : Cause) (cmd : Word64) (s : State) : (raiseFault c cmd s).resultValid = s.resultValid := rfl
@[simp] theorem raiseFault_frameValid (c : Cause) (cmd : Word64) (s : State) : (raiseFault c cmd s).frameValid = s.frameValid := rfl
@[simp] theorem raiseFault_result (c : Cause) (cmd : Word64) (s : State) : (raiseFault c cmd s).result = s.result := rfl
@[simp] theorem raiseFault_frame (c : Cause) (cmd : Word64) (s : State) : (raiseFault c cmd s).frame = s.frame := rfl
@[simp] theorem raiseFault_fcmd (c : Cause) (cmd : Word64) (s : State) : (raiseFault c cmd s).fcmd = cmd := rfl
@[simp] theorem raiseFault_cur (c : Cause) (cmd : Word64) (s : State) : (raiseFault c cmd s).cur = none := rfl
@[simp] theorem raiseFault_next (c : Cause) (cmd : Word64) (s : State) : (raiseFault c cmd s).next = none := rfl
@[simp] theorem raiseFault_out (c : Cause) (cmd : Word64) (s : State) : (raiseFault c cmd s).out = s.out := rfl
@[simp] theorem raiseFault_consumed (c : Cause) (cmd : Word64) (s : State) : (raiseFault c cmd s).consumed = s.consumed := rfl
@[simp] theorem raiseFault_reply (c : Cause) (cmd : Word64) (s : State) : (raiseFault c cmd s).reply = s.reply := rfl
@[simp] theorem raiseFault_schedule (c : Cause) (cmd : Word64) (s : State) : (raiseFault c cmd s).schedule = s.schedule := rfl
@[simp] theorem raiseFault_cfg (c : Cause) (cmd : Word64) (s : State) : (raiseFault c cmd s).cfg = s.cfg := rfl
@[simp] theorem raiseFault_epoch (c : Cause) (cmd : Word64) (s : State) : (raiseFault c cmd s).epoch = s.epoch := rfl
@[simp] theorem raiseFault_reads (c : Cause) (cmd : Word64) (s : State) : (raiseFault c cmd s).reads = s.reads := rfl

/-! `writeResult` -/

@[simp] theorem writeResult_fault (v : Word32) (s : State) : (writeResult v s).fault = s.fault := rfl
@[simp] theorem writeResult_cause (v : Word32) (s : State) : (writeResult v s).cause = s.cause := rfl
@[simp] theorem writeResult_resultValid (v : Word32) (s : State) : (writeResult v s).resultValid = true := rfl
@[simp] theorem writeResult_frameValid (v : Word32) (s : State) : (writeResult v s).frameValid = s.frameValid := rfl
@[simp] theorem writeResult_result (v : Word32) (s : State) : (writeResult v s).result = v := rfl
@[simp] theorem writeResult_frame (v : Word32) (s : State) : (writeResult v s).frame = s.frame := rfl
@[simp] theorem writeResult_fcmd (v : Word32) (s : State) : (writeResult v s).fcmd = s.fcmd := rfl
@[simp] theorem writeResult_cur (v : Word32) (s : State) : (writeResult v s).cur = s.cur := rfl
@[simp] theorem writeResult_next (v : Word32) (s : State) : (writeResult v s).next = s.next := rfl
@[simp] theorem writeResult_out (v : Word32) (s : State) : (writeResult v s).out = s.out := rfl
@[simp] theorem writeResult_consumed (v : Word32) (s : State) : (writeResult v s).consumed = s.consumed := rfl
@[simp] theorem writeResult_reply (v : Word32) (s : State) : (writeResult v s).reply = s.reply := rfl
@[simp] theorem writeResult_schedule (v : Word32) (s : State) : (writeResult v s).schedule = s.schedule := rfl
@[simp] theorem writeResult_cfg (v : Word32) (s : State) : (writeResult v s).cfg = s.cfg := rfl
@[simp] theorem writeResult_epoch (v : Word32) (s : State) : (writeResult v s).epoch = s.epoch := rfl
@[simp] theorem writeResult_reads (v : Word32) (s : State) : (writeResult v s).reads = s.reads := rfl

/-! `writeFrame` -/

@[simp] theorem writeFrame_fault (f : FrameData) (s : State) : (writeFrame f s).fault = s.fault := rfl
@[simp] theorem writeFrame_cause (f : FrameData) (s : State) : (writeFrame f s).cause = s.cause := rfl
@[simp] theorem writeFrame_resultValid (f : FrameData) (s : State) : (writeFrame f s).resultValid = s.resultValid := rfl
@[simp] theorem writeFrame_frameValid (f : FrameData) (s : State) : (writeFrame f s).frameValid = true := rfl
@[simp] theorem writeFrame_result (f : FrameData) (s : State) : (writeFrame f s).result = s.result := rfl
@[simp] theorem writeFrame_frame (f : FrameData) (s : State) : (writeFrame f s).frame = f := rfl
@[simp] theorem writeFrame_fcmd (f : FrameData) (s : State) : (writeFrame f s).fcmd = s.fcmd := rfl
@[simp] theorem writeFrame_cur (f : FrameData) (s : State) : (writeFrame f s).cur = s.cur := rfl
@[simp] theorem writeFrame_next (f : FrameData) (s : State) : (writeFrame f s).next = s.next := rfl
@[simp] theorem writeFrame_out (f : FrameData) (s : State) : (writeFrame f s).out = s.out := rfl
@[simp] theorem writeFrame_consumed (f : FrameData) (s : State) : (writeFrame f s).consumed = s.consumed := rfl
@[simp] theorem writeFrame_reply (f : FrameData) (s : State) : (writeFrame f s).reply = s.reply := rfl
@[simp] theorem writeFrame_schedule (f : FrameData) (s : State) : (writeFrame f s).schedule = s.schedule := rfl
@[simp] theorem writeFrame_cfg (f : FrameData) (s : State) : (writeFrame f s).cfg = s.cfg := rfl
@[simp] theorem writeFrame_epoch (f : FrameData) (s : State) : (writeFrame f s).epoch = s.epoch := rfl
@[simp] theorem writeFrame_reads (f : FrameData) (s : State) : (writeFrame f s).reads = s.reads := rfl

/-! `emptySlots` -/

@[simp] theorem emptySlots_fault (s : State) : (emptySlots s).fault = s.fault := rfl
@[simp] theorem emptySlots_cause (s : State) : (emptySlots s).cause = s.cause := rfl
@[simp] theorem emptySlots_resultValid (s : State) : (emptySlots s).resultValid = s.resultValid := rfl
@[simp] theorem emptySlots_frameValid (s : State) : (emptySlots s).frameValid = s.frameValid := rfl
@[simp] theorem emptySlots_result (s : State) : (emptySlots s).result = s.result := rfl
@[simp] theorem emptySlots_frame (s : State) : (emptySlots s).frame = s.frame := rfl
@[simp] theorem emptySlots_fcmd (s : State) : (emptySlots s).fcmd = s.fcmd := rfl
@[simp] theorem emptySlots_cur (s : State) : (emptySlots s).cur = none := rfl
@[simp] theorem emptySlots_next (s : State) : (emptySlots s).next = none := rfl
@[simp] theorem emptySlots_out (s : State) : (emptySlots s).out = s.out := rfl
@[simp] theorem emptySlots_consumed (s : State) : (emptySlots s).consumed = s.consumed := rfl
@[simp] theorem emptySlots_reply (s : State) : (emptySlots s).reply = s.reply := rfl
@[simp] theorem emptySlots_schedule (s : State) : (emptySlots s).schedule = s.schedule := rfl
@[simp] theorem emptySlots_cfg (s : State) : (emptySlots s).cfg = s.cfg := rfl
@[simp] theorem emptySlots_epoch (s : State) : (emptySlots s).epoch = s.epoch := rfl
@[simp] theorem emptySlots_reads (s : State) : (emptySlots s).reads = s.reads := rfl

/-! `emit` -/

@[simp] theorem emit_fault (x : Sample) (s : State) : (emit x s).fault = s.fault := rfl
@[simp] theorem emit_cause (x : Sample) (s : State) : (emit x s).cause = s.cause := rfl
@[simp] theorem emit_resultValid (x : Sample) (s : State) : (emit x s).resultValid = s.resultValid := rfl
@[simp] theorem emit_frameValid (x : Sample) (s : State) : (emit x s).frameValid = s.frameValid := rfl
@[simp] theorem emit_result (x : Sample) (s : State) : (emit x s).result = s.result := rfl
@[simp] theorem emit_frame (x : Sample) (s : State) : (emit x s).frame = s.frame := rfl
@[simp] theorem emit_fcmd (x : Sample) (s : State) : (emit x s).fcmd = s.fcmd := rfl
@[simp] theorem emit_cur (x : Sample) (s : State) : (emit x s).cur = s.cur := rfl
@[simp] theorem emit_next (x : Sample) (s : State) : (emit x s).next = s.next := rfl
@[simp] theorem emit_out (x : Sample) (s : State) : (emit x s).out = s.out ++ [x] := rfl
@[simp] theorem emit_consumed (x : Sample) (s : State) : (emit x s).consumed = s.consumed := rfl
@[simp] theorem emit_reply (x : Sample) (s : State) : (emit x s).reply = s.reply := rfl
@[simp] theorem emit_schedule (x : Sample) (s : State) : (emit x s).schedule = s.schedule := rfl
@[simp] theorem emit_cfg (x : Sample) (s : State) : (emit x s).cfg = s.cfg := rfl
@[simp] theorem emit_epoch (x : Sample) (s : State) : (emit x s).epoch = s.epoch := rfl
@[simp] theorem emit_reads (x : Sample) (s : State) : (emit x s).reads = s.reads := rfl

/-! `endOfSlot` -/

@[simp] theorem endOfSlot_fault (s : State) : (endOfSlot s).fault = s.fault := rfl
@[simp] theorem endOfSlot_cause (s : State) : (endOfSlot s).cause = s.cause := rfl
@[simp] theorem endOfSlot_resultValid (s : State) : (endOfSlot s).resultValid = s.resultValid := rfl
@[simp] theorem endOfSlot_frameValid (s : State) : (endOfSlot s).frameValid = s.frameValid := rfl
@[simp] theorem endOfSlot_result (s : State) : (endOfSlot s).result = s.result := rfl
@[simp] theorem endOfSlot_frame (s : State) : (endOfSlot s).frame = s.frame := rfl
@[simp] theorem endOfSlot_fcmd (s : State) : (endOfSlot s).fcmd = s.fcmd := rfl
@[simp] theorem endOfSlot_cur (s : State) : (endOfSlot s).cur = s.next.map Slot.start := rfl
@[simp] theorem endOfSlot_next (s : State) : (endOfSlot s).next = none := rfl
@[simp] theorem endOfSlot_out (s : State) : (endOfSlot s).out = s.out := rfl
@[simp] theorem endOfSlot_consumed (s : State) : (endOfSlot s).consumed = s.consumed := rfl
@[simp] theorem endOfSlot_reply (s : State) : (endOfSlot s).reply = s.reply := rfl
@[simp] theorem endOfSlot_schedule (s : State) : (endOfSlot s).schedule = s.schedule := rfl
@[simp] theorem endOfSlot_cfg (s : State) : (endOfSlot s).cfg = s.cfg := rfl
@[simp] theorem endOfSlot_epoch (s : State) : (endOfSlot s).epoch = s.epoch := rfl
@[simp] theorem endOfSlot_reads (s : State) : (endOfSlot s).reads = s.reads := rfl

/-! `tick` -/

@[simp] theorem tick_fault (s : State) : (tick s).fault = s.fault := rfl
@[simp] theorem tick_cause (s : State) : (tick s).cause = s.cause := rfl
@[simp] theorem tick_resultValid (s : State) : (tick s).resultValid = s.resultValid := rfl
@[simp] theorem tick_frameValid (s : State) : (tick s).frameValid = s.frameValid := rfl
@[simp] theorem tick_result (s : State) : (tick s).result = s.result := rfl
@[simp] theorem tick_frame (s : State) : (tick s).frame = s.frame := rfl
@[simp] theorem tick_fcmd (s : State) : (tick s).fcmd = s.fcmd := rfl
@[simp] theorem tick_cur (s : State) : (tick s).cur = s.cur := rfl
@[simp] theorem tick_next (s : State) : (tick s).next = s.next := rfl
@[simp] theorem tick_out (s : State) : (tick s).out = s.out := rfl
@[simp] theorem tick_consumed (s : State) : (tick s).consumed = s.consumed := rfl
@[simp] theorem tick_reply (s : State) : (tick s).reply = s.reply := rfl
@[simp] theorem tick_schedule (s : State) : (tick s).schedule = s.schedule := rfl
@[simp] theorem tick_cfg (s : State) : (tick s).cfg = s.cfg := rfl
@[simp] theorem tick_epoch (s : State) : (tick s).epoch = s.epoch + 1 := rfl
@[simp] theorem tick_reads (s : State) : (tick s).reads = s.reads := rfl

/-! `popTurn` -/

@[simp] theorem popTurn_fault (rest : List Turn) (s : State) : (popTurn rest s).fault = s.fault := rfl
@[simp] theorem popTurn_cause (rest : List Turn) (s : State) : (popTurn rest s).cause = s.cause := rfl
@[simp] theorem popTurn_resultValid (rest : List Turn) (s : State) : (popTurn rest s).resultValid = s.resultValid := rfl
@[simp] theorem popTurn_frameValid (rest : List Turn) (s : State) : (popTurn rest s).frameValid = s.frameValid := rfl
@[simp] theorem popTurn_result (rest : List Turn) (s : State) : (popTurn rest s).result = s.result := rfl
@[simp] theorem popTurn_frame (rest : List Turn) (s : State) : (popTurn rest s).frame = s.frame := rfl
@[simp] theorem popTurn_fcmd (rest : List Turn) (s : State) : (popTurn rest s).fcmd = s.fcmd := rfl
@[simp] theorem popTurn_cur (rest : List Turn) (s : State) : (popTurn rest s).cur = s.cur := rfl
@[simp] theorem popTurn_next (rest : List Turn) (s : State) : (popTurn rest s).next = s.next := rfl
@[simp] theorem popTurn_out (rest : List Turn) (s : State) : (popTurn rest s).out = s.out := rfl
@[simp] theorem popTurn_consumed (rest : List Turn) (s : State) : (popTurn rest s).consumed = s.consumed := rfl
@[simp] theorem popTurn_reply (rest : List Turn) (s : State) : (popTurn rest s).reply = s.reply := rfl
@[simp] theorem popTurn_schedule (rest : List Turn) (s : State) : (popTurn rest s).schedule = rest := rfl
@[simp] theorem popTurn_cfg (rest : List Turn) (s : State) : (popTurn rest s).cfg = s.cfg := rfl
@[simp] theorem popTurn_epoch (rest : List Turn) (s : State) : (popTurn rest s).epoch = s.epoch := rfl
@[simp] theorem popTurn_reads (rest : List Turn) (s : State) : (popTurn rest s).reads = s.reads := rfl

/-! `pushTurn` -/

@[simp] theorem pushTurn_fault (t : Turn) (s : State) : (pushTurn t s).fault = s.fault := rfl
@[simp] theorem pushTurn_cause (t : Turn) (s : State) : (pushTurn t s).cause = s.cause := rfl
@[simp] theorem pushTurn_resultValid (t : Turn) (s : State) : (pushTurn t s).resultValid = s.resultValid := rfl
@[simp] theorem pushTurn_frameValid (t : Turn) (s : State) : (pushTurn t s).frameValid = s.frameValid := rfl
@[simp] theorem pushTurn_result (t : Turn) (s : State) : (pushTurn t s).result = s.result := rfl
@[simp] theorem pushTurn_frame (t : Turn) (s : State) : (pushTurn t s).frame = s.frame := rfl
@[simp] theorem pushTurn_fcmd (t : Turn) (s : State) : (pushTurn t s).fcmd = s.fcmd := rfl
@[simp] theorem pushTurn_cur (t : Turn) (s : State) : (pushTurn t s).cur = s.cur := rfl
@[simp] theorem pushTurn_next (t : Turn) (s : State) : (pushTurn t s).next = s.next := rfl
@[simp] theorem pushTurn_out (t : Turn) (s : State) : (pushTurn t s).out = s.out := rfl
@[simp] theorem pushTurn_consumed (t : Turn) (s : State) : (pushTurn t s).consumed = s.consumed := rfl
@[simp] theorem pushTurn_reply (t : Turn) (s : State) : (pushTurn t s).reply = s.reply := rfl
@[simp] theorem pushTurn_schedule (t : Turn) (s : State) : (pushTurn t s).schedule = t :: s.schedule := rfl
@[simp] theorem pushTurn_cfg (t : Turn) (s : State) : (pushTurn t s).cfg = s.cfg := rfl
@[simp] theorem pushTurn_epoch (t : Turn) (s : State) : (pushTurn t s).epoch = s.epoch := rfl
@[simp] theorem pushTurn_reads (t : Turn) (s : State) : (pushTurn t s).reads = s.reads := rfl

/-! `hostRead` -/

@[simp] theorem hostRead_fault (n : Nat) (s : State) : (hostRead n s).fault = s.fault := rfl
@[simp] theorem hostRead_cause (n : Nat) (s : State) : (hostRead n s).cause = s.cause := rfl
@[simp] theorem hostRead_resultValid (n : Nat) (s : State) : (hostRead n s).resultValid = s.resultValid := rfl
@[simp] theorem hostRead_frameValid (n : Nat) (s : State) : (hostRead n s).frameValid = s.frameValid := rfl
@[simp] theorem hostRead_result (n : Nat) (s : State) : (hostRead n s).result = s.result := rfl
@[simp] theorem hostRead_frame (n : Nat) (s : State) : (hostRead n s).frame = s.frame := rfl
@[simp] theorem hostRead_fcmd (n : Nat) (s : State) : (hostRead n s).fcmd = s.fcmd := rfl
@[simp] theorem hostRead_cur (n : Nat) (s : State) : (hostRead n s).cur = s.cur := rfl
@[simp] theorem hostRead_next (n : Nat) (s : State) : (hostRead n s).next = s.next := rfl
@[simp] theorem hostRead_out (n : Nat) (s : State) : (hostRead n s).out = s.out := rfl
@[simp] theorem hostRead_consumed (n : Nat) (s : State) : (hostRead n s).consumed = s.consumed := rfl
@[simp] theorem hostRead_reply (n : Nat) (s : State) : (hostRead n s).reply = some (readValue n s) := rfl
@[simp] theorem hostRead_schedule (n : Nat) (s : State) : (hostRead n s).schedule = s.schedule := rfl
@[simp] theorem hostRead_cfg (n : Nat) (s : State) : (hostRead n s).cfg = s.cfg := rfl
@[simp] theorem hostRead_epoch (n : Nat) (s : State) : (hostRead n s).epoch = s.epoch := rfl
@[simp] theorem hostRead_reads (n : Nat) (s : State) : (hostRead n s).reads = if n ≤ 4 then s.reads else s.reads + 1 := rfl

/-! `hostReset` -/

@[simp] theorem hostReset_fault (s : State) : (hostReset s).fault = false := rfl
@[simp] theorem hostReset_cause (s : State) : (hostReset s).cause = .none := rfl
@[simp] theorem hostReset_resultValid (s : State) : (hostReset s).resultValid = false := rfl
@[simp] theorem hostReset_frameValid (s : State) : (hostReset s).frameValid = false := rfl
@[simp] theorem hostReset_result (s : State) : (hostReset s).result = 0 := rfl
@[simp] theorem hostReset_frame (s : State) : (hostReset s).frame = 0 := rfl
@[simp] theorem hostReset_fcmd (s : State) : (hostReset s).fcmd = 0 := rfl
@[simp] theorem hostReset_cur (s : State) : (hostReset s).cur = none := rfl
@[simp] theorem hostReset_next (s : State) : (hostReset s).next = none := rfl
@[simp] theorem hostReset_out (s : State) : (hostReset s).out = [] := rfl
@[simp] theorem hostReset_consumed (s : State) : (hostReset s).consumed = 0 := rfl
@[simp] theorem hostReset_reply (s : State) : (hostReset s).reply = s.reply := rfl
@[simp] theorem hostReset_schedule (s : State) : (hostReset s).schedule = s.schedule := rfl
@[simp] theorem hostReset_cfg (s : State) : (hostReset s).cfg = s.cfg := rfl
@[simp] theorem hostReset_epoch (s : State) : (hostReset s).epoch = s.epoch := rfl
@[simp] theorem hostReset_reads (s : State) : (hostReset s).reads = s.reads := rfl

/-! The reset state's fields come by `rfl`; the start of a slot: -/

@[simp] theorem start_slot (e : Slot) : e.start.slot = e := rfl
@[simp] theorem start_ps (e : Slot) : e.start.ps = 0 := rfl
@[simp] theorem start_pi (e : Slot) : e.start.pi = 0 := rfl

end Sys2Proof.Machine
end

