-- ==== Sys2Proof/Laws/Ops.lean ====
section
/-! SUPPORT. One lemma for each shared operation that says once everything it can do; later proofs cite these
and do not unfold the operations. -/

namespace Sys2Proof.Machine

/-! ### The fault gate -/

@[simp] theorem gated_open (f : State → State) {s : State} (h : s.fault = false) :
    gated f s = .next (f s) := by simp [gated, h]

@[simp] theorem gated_closed (f : State → State) {s : State} (h : s.fault = true) :
    gated f s = .next s := by simp [gated, h]

/-- A faulted block discards every command. -/
theorem exec_discarded (i : Instr) {s : State} (h : s.fault = true) : exec i s = .next s := by
  cases i <;>
    simp only [exec, execNop, execEncode, execParity, execBcd, execSyns, execSynm, execAbort, execLdfr,
      gated_closed _ h]

/-- Every command answers a next state. -/
theorem exec_next (i : Instr) (s : State) : ∃ t, exec i s = .next t := by
  cases i <;> exact ⟨_, rfl⟩

/-! ### Accepting a record -/

/-- `accept`, case by case. -/
theorem accept_cases (e : Slot) (cmd : Word64) (s : State) :
    (s.cur = none ∧ accept e cmd s = { s with cur := some e.start }) ∨
    (s.cur ≠ none ∧ s.next = none ∧ accept e cmd s = { s with next := some e }) ∨
    (s.cur ≠ none ∧ s.next ≠ none ∧ accept e cmd s = raiseFault .overrun cmd s) := by
  unfold accept
  cases hc : s.cur <;> cases hn : s.next <;> simp

/-! ### What a command can do -/

/-- The record an unfaulting synthesis command queues. -/
inductive Queues (s : State) : Instr → Slot → Prop where
  | syns {sym : BitVec 2} {y : Symbol} {sr : Word32} (hy : symOf sym = some y) (hr : rateLegal sr) :
      Queues s (.syns sym sr) (symbolSlot y sr)
  | synm {start : BitVec 6} {sr : Word32} (hs : startLegal start) (hr : rateLegal sr)
      (hf : s.frameValid = true) : Queues s (.synm start sr) (minuteSlot s.frame start sr)

/-- Everything a command can do to an unfaulted block: fault, or its own effect. -/
inductive Effect (s : State) (i : Instr) : State → Prop where
  | faults (c : Cause) (hc : c ≠ .none) : Effect s i (raiseFault c (encode i) s)
  | nothing (hi : i = .nop) : Effect s i s
  | frame (f : FrameData) (hi : (∃ t, i = .encode t ∧ timeInRange t ∧ f = timeFrame s.cfg t) ∨ i = .ldfr f) :
      Effect s i (writeFrame f s)
  | result (v : Word32) (hi : (∃ w x, i = .bcd w x) ∨ ∃ len d, i = .parity len d) :
      Effect s i (writeResult v s)
  | abort (hi : i = .abort) : Effect s i (emptySlots s)
  | toCur (e : Slot) (hq : Queues s i e) (hc : s.cur = none) :
      Effect s i { s with cur := some e.start }
  | toNext (e : Slot) (hq : Queues s i e) (hc : s.cur ≠ none) (hn : s.next = none) :
      Effect s i { s with next := some e }

theorem effect_of_accept {s : State} {i : Instr} {e : Slot} (hq : Queues s i e) :
    Effect s i (accept e (encode i) s) := by
  rcases accept_cases e (encode i) s with ⟨hc, h⟩ | ⟨hc, hn, h⟩ | ⟨hc, hn, h⟩ <;> rw [h]
  · exact .toCur e hq hc
  · exact .toNext e hq hc hn
  · exact .faults _ (by decide)

/-- The inversion lemma of `exec`. -/
theorem exec_effect {i : Instr} {s t : State} (hf : s.fault = false) (h : exec i s = .next t) :
    Effect s i t := by
  cases i with
  | nop =>
    obtain rfl : s = t := by simpa [exec, execNop, hf] using h
    exact .nothing rfl
  | encode c =>
    simp only [exec, execEncode, gated_open _ hf, Host.Outcome.next.injEq] at h
    split at h <;> subst h
    · exact .frame _ (.inl ⟨c, rfl, ‹_›, rfl⟩)
    · exact .faults _ (by decide)
  | parity len d =>
    simp only [exec, execParity, gated_open _ hf, Host.Outcome.next.injEq] at h
    split at h <;> subst h
    · exact .result _ (.inr ⟨len, d, rfl⟩)
    · exact .faults _ (by decide)
  | bcd w x =>
    simp only [exec, execBcd, gated_open _ hf, Host.Outcome.next.injEq] at h
    split at h
    · subst h; exact .faults _ (by decide)
    · split at h <;> subst h
      · exact .faults _ (by decide)
      · exact .result _ (.inl ⟨w, x, rfl⟩)
  | syns sym sr =>
    simp only [exec, execSyns, gated_open _ hf, Host.Outcome.next.injEq] at h
    split at h
    · subst h; exact .faults _ (by decide)
    · split at h <;> subst h
      · exact effect_of_accept (.syns ‹_› ‹_›)
      · exact .faults _ (by decide)
  | synm start sr =>
    simp only [exec, execSynm, gated_open _ hf, Host.Outcome.next.injEq] at h
    split at h
    · subst h; exact .faults _ (by decide)
    · rename_i h1
      split at h <;> subst h
      · exact .faults _ (by decide)
      · rename_i h2
        have h1 : startLegal start ∧ rateLegal sr := Classical.not_not.mp h1
        exact effect_of_accept (.synm h1.1 h1.2 (by simpa using h2))
  | abort =>
    obtain rfl : emptySlots s = t := by simpa [exec, execAbort, hf] using h
    exact .abort rfl
  | ldfr fr =>
    obtain rfl : writeFrame fr s = t := by simpa [exec, execLdfr, hf] using h
    exact .frame _ (.inr rfl)

/-! ### The SYN step -/

/-- Everything a turn of SYN can do, if it answers a next state: nothing with CUR empty, else one sample and
the next position. -/
inductive SynEffect (s : State) : State → Prop where
  | idle (hc : s.cur = none) : SynEffect s s
  | sample {c : Playing} {sym : Symbol} (hc : s.cur = some c) (hs : c.slot.syms[c.ps]? = some sym)
      (hi : c.pi < c.slot.sr.toNat) :
      SynEffect s (tick (advance c (emit (sampleAt sym c.pi c.slot.sr) s)))

theorem synTurn_effect {s t : State} (h : synTurn s = .next t) : SynEffect s t := by
  unfold synTurn at h
  split at h
  · cases h; exact .idle ‹_›
  · split at h
    · cases h
    · split at h
      · cases h; exact .sample ‹_› ‹_› ‹_›
      · cases h

theorem synTurn_idle {s : State} (hc : s.cur = none) : synTurn s = .next s := by simp [synTurn, hc]

theorem synTurn_sample {s : State} {c : Playing} {sym : Symbol} (hc : s.cur = some c)
    (hs : c.slot.syms[c.ps]? = some sym) (hi : c.pi < c.slot.sr.toNat) :
    synTurn s = .next (tick (advance c (emit (sampleAt sym c.pi c.slot.sr) s))) := by
  simp [synTurn, hc, hs, hi]

/-- A CUR that obeys rule R26 has a sample to emit. -/
theorem Playing.Ok.symbol {c : Playing} (h : c.Ok) : ∃ sym, c.slot.syms[c.ps]? = some sym :=
  ⟨_, List.getElem?_eq_getElem h.2.1⟩

/-- Where `advance` puts the position. -/
inductive Advances (c : Playing) (s : State) : State → Prop where
  | sample (h : c.pi + 1 ≠ c.slot.sr.toNat) : Advances c s { s with cur := some { c with pi := c.pi + 1 } }
  | second (h : c.pi + 1 = c.slot.sr.toNat) (h' : c.ps + 1 ≠ c.slot.syms.length) :
      Advances c s { s with cur := some { c with ps := c.ps + 1, pi := 0 } }
  | swap (h : c.pi + 1 = c.slot.sr.toNat) (h' : c.ps + 1 = c.slot.syms.length) :
      Advances c s (endOfSlot s)

theorem advance_cases (c : Playing) (s : State) : Advances c s (advance c s) := by
  unfold advance
  split
  · exact .sample ‹_›
  · split
    · exact .second (by omega) ‹_›
    · exact .swap (by omega) (by omega)

/-- `advance` moves the slots and nothing else. -/
theorem advance_frame (c : Playing) (s : State) :
    advance c s = { s with cur := (advance c s).cur, next := (advance c s).next } := by
  have h := advance_cases c s
  generalize advance c s = t at h
  cases h <;> rfl

/-- Where `advance` puts the slots depends on the slots alone. -/
theorem advance_slots (c : Playing) {s s' : State} (h : s.next = s'.next) :
    (advance c s).cur = (advance c s').cur ∧ (advance c s).next = (advance c s').next := by
  unfold advance
  split
  · exact ⟨rfl, h⟩
  · split
    · exact ⟨rfl, h⟩
    · simp [h]

/-! ### Turns and steps -/

/-- Everything a step can do, if it answers a next state. -/
inductive StepEffect (s : State) : State → Prop where
  | syn {t : State} (hs : s.schedule = []) (h : SynEffect s t) : StepEffect s t
  | synTurn {t : State} {rest : List Turn} (hs : s.schedule = .syn :: rest)
      (h : SynEffect (popTurn rest s) t) : StepEffect s t
  | discarded {w : Word64} {rest : List Turn} (hs : s.schedule = .issue w :: rest) (hf : s.fault = true) :
      StepEffect s (tick (popTurn rest s))
  | illegal {w : Word64} {rest : List Turn} (hs : s.schedule = .issue w :: rest) (hf : s.fault = false)
      (hd : decode w = none) : StepEffect s (raiseFault .illegalCmd w (tick (popTurn rest s)))
  | command {w : Word64} {rest : List Turn} {i : Instr} {t : State} (hs : s.schedule = .issue w :: rest)
      (hf : s.fault = false) (hd : decode w = some i) (h : Effect (tick (popTurn rest s)) i t) :
      StepEffect s t
  | read {n : Nat} {rest : List Turn} (hs : s.schedule = .read n :: rest) :
      StepEffect s (hostRead n (popTurn rest s))
  | reset {rest : List Turn} (hs : s.schedule = .reset :: rest) :
      StepEffect s (hostReset (tick (popTurn rest s)))
  | consume {rest : List Turn} (hs : s.schedule = .consume :: rest) :
      StepEffect s (hostConsume (tick (popTurn rest s)))

/-- A step of a block whose first turn is known. -/
theorem step_turn {s : State} {turn : Turn} {rest : List Turn} (hs : s.schedule = turn :: rest) :
    step s = perform turn (popTurn rest s) := by unfold step; rw [hs]

theorem step_syn {s : State} (hs : s.schedule = []) : step s = synTurn s := by unfold step; rw [hs]

/-- The turn that issues the word of a command runs it. -/
theorem step_issue {s : State} {w : Word64} {i : Instr} {rest : List Turn}
    (hs : s.schedule = .issue w :: rest) (hd : decode w = some i) :
    step s = exec i (tick (popTurn rest s)) := by
  rw [step_turn hs]
  simp only [perform, issue, hd]
  split
  · exact (exec_discarded i ‹_›).symm
  · rfl

/-- The inversion lemma of `step`. -/
theorem step_effect {s t : State} (h : step s = .next t) : StepEffect s t := by
  cases hs : s.schedule with
  | nil => rw [step_syn hs] at h; exact .syn hs (synTurn_effect h)
  | cons turn rest =>
    rw [step_turn hs] at h
    cases turn with
    | issue w =>
      cases hf : s.fault with
      | true =>
        simp only [perform, issue, tick_fault, popTurn_fault, hf, if_true, Host.Outcome.next.injEq] at h
        subst h; exact .discarded hs hf
      | false =>
        cases hd : decode w with
        | none =>
          simp only [perform, issue, tick_fault, popTurn_fault, hf, hd, Bool.false_eq_true, if_false,
            Host.Outcome.next.injEq] at h
          subst h; exact .illegal hs hf hd
        | some i =>
          simp only [perform, issue, tick_fault, popTurn_fault, hf, hd, Bool.false_eq_true, if_false] at h
          exact .command hs hf hd (exec_effect hf h)
    | read n => cases h; exact .read hs
    | reset => cases h; exact .reset hs
    | consume => cases h; exact .consume hs
    | syn => exact .synTurn hs (synTurn_effect h)

/-- `hostConsume` moves the host's place and its reply, and nothing else. -/
theorem hostConsume_cases (s : State) :
    (s.out[s.consumed]? = none ∧ hostConsume s = s) ∨
    ∃ x, s.out[s.consumed]? = some x ∧
      hostConsume s = { s with consumed := s.consumed + 1, reply := some (.sample x) } := by
  unfold hostConsume
  cases h : s.out[s.consumed]? <;> simp

/-! ### Turns of SYN, and turns of the host between them -/

/-- A turn of SYN, scheduled or not, is `synTurn` of the state without it. -/
theorem step_synMoves {s : State} (h : s.SynMoves 1) : step s = synTurn (popTurn s.schedule.tail s) := by
  cases hs : s.schedule with
  | nil => rw [step_syn hs, List.tail_nil]; congr 1; rw [← hs]; rfl
  | cons turn rest =>
    obtain rfl : turn = .syn := h turn (by simp [hs])
    rw [step_turn hs]; rfl

/-- The first of several turns of SYN, and the others. -/
theorem State.SynMoves.succ {s : State} {k : Nat} (h : s.SynMoves (k + 1)) :
    s.SynMoves 1 ∧ ∀ t : State, t.schedule = s.schedule.tail → t.SynMoves k := by
  unfold State.SynMoves at *
  cases hs : s.schedule with
  | nil => exact ⟨by simp, fun t ht => by simp [ht]⟩
  | cons turn rest =>
    rw [hs] at h
    exact ⟨fun u hu => h u (by simp_all), fun t ht u hu => h u (by
      rw [ht] at hu; exact List.mem_cons_of_mem _ hu)⟩

/-- One step of a run. -/
theorem run_succ {k : Nat} {s t : State} (h : step s = .next t) : run (k + 1) s = run k t := by
  rw [run, h]

/-- A run that answers a next state begins with a step that does. -/
theorem run_succ_next {k : Nat} {s v : State} (h : run (k + 1) s = .next v) :
    ∃ t, step s = .next t ∧ run k t = .next v := by
  rw [run] at h
  split at h
  · exact ⟨_, ‹_›, h⟩
  · cases h
  · cases h

/-- A fault stays until reset. -/
theorem step_keeps_fault {s t : State} (h : step s = .next t) (hf : s.fault = true)
    (hr : ∀ rest, s.schedule ≠ .reset :: rest) : t.fault = true := by
  cases step_effect h with
  | syn hs e =>
    cases e with
    | idle => exact hf
    | sample => rw [advance_frame]; exact hf
  | synTurn hs e =>
    cases e with
    | idle => exact hf
    | sample => rw [advance_frame]; exact hf
  | discarded hs _ => exact hf
  | illegal hs hf' hd => exact rfl
  | command hs hf' => simp_all
  | read hs => exact hf
  | reset hs => exact absurd hs (hr _)
  | @consume rest hs =>
    rcases hostConsume_cases (tick (popTurn rest s)) with ⟨-, e⟩ | ⟨_, -, e⟩ <;> rw [e] <;> exact hf

/-- A turn of the host that is no ABORT and no reset, and does not fault, leaves a CUR that plays as it is, and
emits nothing. -/
theorem step_host_keeps_cur {s t : State} {turn : Turn} {rest : List Turn} (h : step s = .next t)
    (hs : s.schedule = turn :: rest) (h1 : turn ≠ .syn) (h2 : turn ≠ .reset)
    (h3 : turn ≠ .issue (encode .abort)) (hc : s.cur ≠ none) (hf : t.fault = false) :
    t.cur = s.cur ∧ t.out = s.out ∧ t.schedule = rest := by
  cases step_effect h with
  | syn hs' => simp [hs] at hs'
  | synTurn hs' => rw [hs] at hs'; cases hs'; exact absurd rfl h1
  | discarded hs' => rw [hs] at hs'; cases hs'; exact ⟨rfl, rfl, rfl⟩
  | illegal hs' => cases hf
  | @command w rest' i _ hs' hf' hd e =>
    rw [hs] at hs'; cases hs'
    cases e with
    | faults c _ => cases hf
    | nothing => exact ⟨rfl, rfl, rfl⟩
    | frame f => exact ⟨rfl, rfl, rfl⟩
    | result v => exact ⟨rfl, rfl, rfl⟩
    | abort hi => subst hi; exact absurd (congrArg Turn.issue (decode_abort hd)) h3
    | toCur e hq hc' => exact absurd hc' hc
    | toNext e hq _ _ => exact ⟨rfl, rfl, rfl⟩
  | read hs' => rw [hs] at hs'; cases hs'; exact ⟨rfl, rfl, rfl⟩
  | reset hs' => rw [hs] at hs'; cases hs'; exact absurd rfl h2
  | @consume rest' hs' =>
    rw [hs] at hs'; cases hs'
    rcases hostConsume_cases (tick (popTurn rest s)) with ⟨-, e⟩ | ⟨_, -, e⟩ <;> rw [e] <;> exact ⟨rfl, rfl, rfl⟩

end Sys2Proof.Machine
end

