-- ==== Sys2Proof/Laws/PerInstr.lean ====
section
/-! SUPPORT. Statements about every command, one lemma per constructor. `OpcodeField`: the word of a command
carries the OP that rule R71 of 30_encoding.md gives it, in CMD[3:0]. -/

namespace Sys2Proof.Laws.OpcodeField

/-- The OP column of rule R71. -/
def opcode : Instr → BitVec 4
  | .nop => 0x0
  | .encode _ => 0x1
  | .parity _ _ => 0x2
  | .bcd _ _ => 0x3
  | .syns _ _ => 0x4
  | .synm _ _ => 0x5
  | .abort => 0x6
  | .ldfr _ => 0x7

/-- CMD[3:0] of the word of `i` is the OP of its row. -/
def Statement (i : Instr) : Prop := field (Sys2Proof.encode i) 0 4 = opcode i

/-- The lowest four bits of a word written with its OP on the right. -/
theorem field_append_op {a : Nat} (x : BitVec a) (op : BitVec 4) : (x ++ op).extractLsb' 0 4 = op := by
  rw [extract_append_within _ _ (by omega), extract_all]

theorem nop : Statement .nop := field_append_op (0#60) _

theorem encode (t : CivilTime) : Statement (.encode t) := field_append_op _ _

theorem parity (len : BitVec 6) (data : BitVec 48) : Statement (.parity len data) := field_append_op _ _

theorem bcd (w : BitVec 4) (val : BitVec 8) : Statement (.bcd w val) := field_append_op _ _

theorem syns (sym : BitVec 2) (sr : Word32) : Statement (.syns sym sr) := field_append_op _ _

theorem synm (start : BitVec 6) (sr : Word32) : Statement (.synm start sr) := field_append_op _ _

theorem abort : Statement .abort := field_append_op (0#60) _

theorem ldfr (fr : FrameData) : Statement (.ldfr fr) := field_append_op _ _

end Sys2Proof.Laws.OpcodeField
end

