-- ==== Sys2Proof/Laws/Sine.lean ====
section
/-! SUPPORT. What each stage of `qsin` computes, over the reals: the exact angles, the rational enclosure,
the exact comparison (42_synthesizer.md rules R160, R165). -/

namespace Sys2Proof.Machine

open Real

/-- The value QSIN is the floor of (rule R160). -/
noncomputable def realTone (m sr : Nat) : ℝ := sin (2 * π * m / sr) * sr / 3

/-- Integer division by a positive number is the floor of the real quotient. -/
theorem floor_quotient (a : Int) {d : Int} (hd : 0 < d) : ⌊(a : ℝ) / d⌋ = a / d := by
  have hd' : (0 : ℝ) < d := by exact_mod_cast hd
  rw [Int.floor_eq_iff]
  constructor
  · rw [le_div_iff₀ hd']
    exact_mod_cast Int.ediv_mul_le a hd.ne'
  · rw [div_lt_iff₀ hd']
    exact_mod_cast Int.lt_ediv_add_one_mul_self a hd

/-! ### The exact angles -/

theorem twiceSineAt_spec {j : Nat} {e : Int} (h : twiceSineAt j = some e) : 2 * sin (π * j / 6) = e := by
  unfold twiceSineAt at h
  split at h <;> cases h
  · simp
  · rw [show π * (1 : ℕ) / 6 = π / 6 by push_cast; ring, sin_pi_div_six]; norm_num
  · rw [show π * (3 : ℕ) / 6 = π / 2 by push_cast; ring, sin_pi_div_two]; norm_num
  · rw [show π * (5 : ℕ) / 6 = π - π / 6 by push_cast; ring, sin_pi_sub, sin_pi_div_six]; norm_num
  · rw [show π * (6 : ℕ) / 6 = π by push_cast; ring, sin_pi]; norm_num
  · rw [show π * (7 : ℕ) / 6 = π / 6 + π by push_cast; ring, sin_add_pi, sin_pi_div_six]; norm_num
  · rw [show π * (9 : ℕ) / 6 = π / 2 + π by push_cast; ring, sin_add_pi, sin_pi_div_two]; norm_num
  · rw [show π * (11 : ℕ) / 6 = (π - π / 6) + π by push_cast; ring, sin_add_pi, sin_pi_sub, sin_pi_div_six]
    norm_num

/-- At an exact angle the value is rational. -/
theorem exactTwiceSine_spec {m sr : Nat} {e : Int} (hsr : 0 < sr) (h : exactTwiceSine m sr = some e) :
    realTone m sr = (e * sr : Int) / (6 : Int) := by
  unfold exactTwiceSine at h
  split at h
  · rename_i h0
    have hj : 12 * m = sr * (12 * m / sr) := (Nat.mul_div_cancel' (Nat.dvd_of_mod_eq_zero h0)).symm
    have hs := twiceSineAt_spec h
    have hsr' : (sr : ℝ) ≠ 0 := by positivity
    have hj' : (12 : ℝ) * m = sr * (12 * m / sr : Nat) := by exact_mod_cast hj
    have ha : 2 * π * m / sr = π * (12 * m / sr : Nat) / 6 := by
      field_simp; linear_combination hj'
    rw [realTone, ha]
    push_cast
    linear_combination (sr : ℝ) / 6 * hs
  · cases h

/-! ### The enclosure -/

/-- The polynomial `sineSeries` evaluates, at x² = y. -/
noncomputable def seriesValue (y : ℝ) : Nat → Nat → ℝ
  | 0, _ => 1
  | terms + 1, k => 1 - y / ((2 * k + 2) * (2 * k + 3)) * seriesValue y terms (k + 1)

theorem sineSeries_spec (a : Int) {b : Int} (hb : 0 < b) (terms k : Nat) :
    0 < (sineSeries a b terms k).2 ∧
    ((sineSeries a b terms k).1 : ℝ) / (sineSeries a b terms k).2
      = seriesValue (((a : ℝ) / b) ^ 2) terms k := by
  induction terms generalizing k with
  | zero => simp [sineSeries, seriesValue]
  | succ terms ih =>
    obtain ⟨hpos, hval⟩ := ih (k + 1)
    have hk : (0 : Int) < (2 * k + 2) * (2 * k + 3) := by positivity
    have hb' : (b : ℝ) ≠ 0 := by exact_mod_cast hb.ne'
    have hp' : ((sineSeries a b terms (k + 1)).2 : ℝ) ≠ 0 := by exact_mod_cast hpos.ne'
    have hk' : ((2 : ℝ) * k + 2) * (2 * k + 3) ≠ 0 := by positivity
    refine ⟨by simp only [sineSeries]; positivity, ?_⟩
    simp only [sineSeries, seriesValue, ← hval]
    push_cast
    field_simp

/-- The Taylor polynomial, as a sum. -/
theorem seriesValue_eq_sum (x : ℝ) (terms k : Nat) :
    seriesValue (x ^ 2) terms k * (x ^ (2 * k + 1) / (2 * k + 1).factorial)
      = ∑ j ∈ Finset.range (terms + 1), (-1) ^ j * (x ^ (2 * (k + j) + 1) / (2 * (k + j) + 1).factorial) := by
  induction terms generalizing k with
  | zero => simp [seriesValue]
  | succ terms ih =>
    rw [Finset.sum_range_succ', seriesValue]
    have h := ih (k + 1)
    have hf : ((2 * (k + 1) + 1).factorial : ℝ) = (2 * k + 3) * ((2 * k + 2) * (2 * k + 1).factorial) := by
      rw [show 2 * (k + 1) + 1 = (2 * k + 1) + 1 + 1 by ring, Nat.factorial_succ, Nat.factorial_succ]
      push_cast; ring
    have hne : ((2 * k + 1).factorial : ℝ) ≠ 0 := by positivity
    have h2 : (2 * (k : ℝ) + 2) ≠ 0 := by positivity
    have h3 : (2 * (k : ℝ) + 3) ≠ 0 := by positivity
    have hstep : x ^ 2 / ((2 * k + 2) * (2 * k + 3)) * (x ^ (2 * k + 1) / (2 * k + 1).factorial)
        = x ^ (2 * (k + 1) + 1) / (2 * (k + 1) + 1).factorial := by
      rw [hf]; field_simp; ring
    have hsum : ∑ j ∈ Finset.range (terms + 1),
        (-1 : ℝ) ^ (j + 1) * (x ^ (2 * (k + (j + 1)) + 1) / (2 * (k + (j + 1)) + 1).factorial)
        = -(seriesValue (x ^ 2) terms (k + 1) * (x ^ (2 * (k + 1) + 1) / (2 * (k + 1) + 1).factorial)) := by
      rw [h, ← Finset.sum_neg_distrib]
      refine Finset.sum_congr rfl fun j _ => ?_
      rw [show k + (j + 1) = k + 1 + j by ring]; ring
    rw [hsum, ← hstep]
    simp only [pow_zero, one_mul, Nat.add_zero]
    ring

theorem im_exp_partial_sum (x : ℝ) (n : Nat) :
    (∑ i ∈ Finset.range (2 * n), ((x : ℂ) * Complex.I) ^ i / (i.factorial : ℂ)).im
      = ∑ j ∈ Finset.range n, (-1) ^ j * (x ^ (2 * j + 1) / (2 * j + 1).factorial) := by
  induction n with
  | zero => simp
  | succ n ih =>
    rw [show 2 * (n + 1) = 2 * n + 1 + 1 by ring, Finset.sum_range_succ, Finset.sum_range_succ,
      Finset.sum_range_succ, Complex.add_im, Complex.add_im, ih]
    have heven : (((x : ℂ) * Complex.I) ^ (2 * n) / ((2 * n).factorial : ℂ)).im = 0 := by
      rw [mul_pow, pow_mul Complex.I, Complex.I_sq]
      have : ((x : ℂ) ^ (2 * n) * (-1) ^ n / ((2 * n).factorial : ℂ))
          = ((x ^ (2 * n) * (-1) ^ n / (2 * n).factorial : ℝ) : ℂ) := by push_cast; ring
      rw [this, Complex.ofReal_im]
    have hodd : (((x : ℂ) * Complex.I) ^ (2 * n + 1) / ((2 * n + 1).factorial : ℂ)).im
        = (-1) ^ n * (x ^ (2 * n + 1) / (2 * n + 1).factorial) := by
      rw [mul_pow, pow_succ Complex.I, pow_mul Complex.I, Complex.I_sq]
      have : ((x : ℂ) ^ (2 * n + 1) * ((-1) ^ n * Complex.I) / ((2 * n + 1).factorial : ℂ))
          = (((-1) ^ n * (x ^ (2 * n + 1) / (2 * n + 1).factorial) : ℝ) : ℂ) * Complex.I := by
        push_cast; ring
      rw [this]; simp only [Complex.mul_im, Complex.ofReal_re, Complex.ofReal_im, Complex.I_re, Complex.I_im]; ring
    rw [heven, hodd]; ring

/-- The polynomial of 32 terms is near the sine. -/
theorem sin_sub_sum_le {x : ℝ} (hx : |x| ≤ 6.3) :
    |sin x - ∑ j ∈ Finset.range 32, (-1) ^ j * (x ^ (2 * j + 1) / (2 * j + 1).factorial)| ≤ 1 / 10 ^ 20 := by
  have hn : ‖(x : ℂ) * Complex.I‖ = |x| := by simp
  have hb := Complex.exp_bound' (x := (x : ℂ) * Complex.I) (n := 64)
    (by rw [hn, Nat.succ_eq_add_one]; push_cast; rw [div_le_div_iff₀ (by norm_num) (by norm_num)]; linarith)
  have him : (Complex.exp ((x : ℂ) * Complex.I)).im = sin x := Complex.exp_ofReal_mul_I_im x
  have hle := (Complex.abs_im_le_norm _).trans hb
  rw [Complex.sub_im, him, show (64 : Nat) = 2 * 32 from rfl, im_exp_partial_sum, hn] at hle
  refine hle.trans ?_
  have h1 : |x| ^ (2 * 32) ≤ 6.3 ^ 64 := pow_le_pow_left₀ (abs_nonneg x) hx 64
  calc |x| ^ (2 * 32) / (2 * 32 : Nat).factorial * 2 ≤ 6.3 ^ 64 / (64 : Nat).factorial * 2 := by gcongr
    _ ≤ 1 / 10 ^ 20 := by
      rw [show (64 : Nat).factorial = 126886932185884164103433389335161480802865516174545192198801894375214704230400000000000000 by decide +kernel]
      norm_num

/-- The rational angle `sineApprox` takes is near the real one. -/
theorem approxAngle_spec {m sr : Nat} (hm : m < sr) :
    ∃ x : ℝ, x = ((2 * piScaled * m : Int) : ℝ) / ((10 ^ 20 * (sr : Int) : Int) : ℝ) ∧
      |x| ≤ 6.3 ∧ |2 * π * m / sr - x| ≤ 2 / 10 ^ 20 := by
  have hsr : (0 : ℝ) < sr := by exact_mod_cast (Nat.zero_le m).trans_lt hm
  have hr1 : (m : ℝ) / sr < 1 := by rw [div_lt_one hsr]; exact_mod_cast hm
  have hr0 : 0 ≤ (m : ℝ) / sr := by positivity
  have hx : ((2 * piScaled * m : Int) : ℝ) / ((10 ^ 20 * (sr : Int) : Int) : ℝ)
      = 2 * ((piScaled : ℝ) / 10 ^ 20) * (m / sr) := by
    push_cast; ring
  have hp : (piScaled : ℝ) / 10 ^ 20 = 3.14159265358979323846 := by norm_num [piScaled]
  refine ⟨_, rfl, ?_, ?_⟩
  · rw [hx, hp, abs_of_nonneg (by positivity)]; nlinarith
  · rw [hx, hp, show 2 * π * m / sr = 2 * π * (m / sr) by ring, ← sub_mul, ← mul_sub, abs_of_nonneg
      (mul_nonneg (by linarith [pi_gt_d20]) hr0)]
    nlinarith [pi_lt_d20, pi_gt_d20]

/-- What `sineSeries` gives, as a sum. -/
theorem series_quotient (a : Int) {b : Int} (hb : 0 < b) (terms : Nat) :
    ((a * (sineSeries a b terms 0).1 : Int) : ℝ) / ((b * (sineSeries a b terms 0).2 : Int) : ℝ)
      = ∑ j ∈ Finset.range (terms + 1),
        (-1) ^ j * (((a : ℝ) / b) ^ (2 * j + 1) / (2 * j + 1).factorial) := by
  have h := seriesValue_eq_sum ((a : ℝ) / b) terms 0
  simp only [Nat.mul_zero, Nat.zero_add, pow_one, Nat.factorial_one, Nat.cast_one, div_one] at h
  rw [← h, ← (sineSeries_spec a hb terms 0).2, Int.cast_mul, Int.cast_mul, mul_div_mul_comm, mul_comm]

/-- The enclosure of the sine. -/
theorem sineApprox_spec {m sr : Nat} (hm : m < sr) :
    0 < (sineApprox m sr).2 ∧
    |sin (2 * π * m / sr) - ((sineApprox m sr).1 : ℝ) / (sineApprox m sr).2| ≤ 3 / 10 ^ 20 := by
  have hb : (0 : Int) < 10 ^ 20 * (sr : Int) := by
    have : 0 < sr := (Nat.zero_le m).trans_lt hm
    positivity
  have hpos := (sineSeries_spec (2 * piScaled * m) hb sineTerms 0).1
  obtain ⟨x, hx, hle, hdist⟩ := approxAngle_spec hm
  have hq := series_quotient (2 * piScaled * m) hb sineTerms
  rw [← hx] at hq
  have h1 := sin_sub_sum_le hle
  have h2 := (abs_sin_sub_sin_le (2 * π * m / sr) x).trans hdist
  have h3 := abs_sub_le (sin (2 * π * m / sr)) (sin x)
    (∑ j ∈ Finset.range 32, (-1) ^ j * (x ^ (2 * j + 1) / (2 * j + 1).factorial))
  unfold sineApprox
  refine ⟨mul_pos hb hpos, ?_⟩
  dsimp only
  rw [hq]
  exact h3.trans (by linarith)

/-- One end of the enclosure: the floor of a rational near the value. -/
theorem enclosure_end (a s d : Int) (sr : Nat) (T : Int) (hd : 0 < d) (hT : 0 < T) :
    (a * T + s * d) * sr / (3 * (d * T)) = ⌊((a : ℝ) / d + s / T) * sr / 3⌋ := by
  rw [← floor_quotient _ (by positivity)]
  have h1 : (d : ℝ) ≠ 0 := by exact_mod_cast hd.ne'
  have h2 : (T : ℝ) ≠ 0 := by exact_mod_cast hT.ne'
  congr 1; push_cast; field_simp

/-- The enclosure leaves one or two floors. -/
theorem qsinBounds_spec {m sr : Nat} (hm : m < sr) (hsr : sr < 2 ^ 32) :
    (qsinBounds m sr).1 ≤ ⌊realTone m sr⌋ ∧ ⌊realTone m sr⌋ ≤ (qsinBounds m sr).2 ∧
    (qsinBounds m sr).2 ≤ (qsinBounds m sr).1 + 1 := by
  obtain ⟨hpos, hval⟩ := sineApprox_spec hm
  have h0 : (0 : ℝ) ≤ sr := Nat.cast_nonneg sr
  have h32 : (sr : ℝ) < 2 ^ 32 := by exact_mod_cast hsr
  have hT : (0 : Int) < 10 ^ 20 := by norm_num
  unfold qsinBounds realTone
  generalize sineApprox m sr = p at *
  obtain ⟨a, d⟩ := p
  dsimp only at *
  rw [show a * 10 ^ 20 - 3 * d = a * 10 ^ 20 + (-3) * d by ring, enclosure_end _ _ _ _ _ hpos hT,
    enclosure_end _ _ _ _ _ hpos hT]
  push_cast
  generalize (a : ℝ) / d = v at *
  generalize sin (2 * π * m / sr) = y at *
  obtain ⟨hl, hu⟩ := abs_le.1 hval
  refine ⟨Int.floor_le_floor ?_, Int.floor_le_floor ?_, ?_⟩
  · gcongr; linarith
  · gcongr; linarith
  · rw [← Int.floor_add_one]
    refine Int.floor_le_floor ?_
    nlinarith
/-! ### The exact comparison -/

/-- In its half-turn the sine has the half-turn's sign. -/
theorem sin_halfTurn (h : Nat) (x : ℝ) : sin (x + h * π) = (-1) ^ h * sin x := by
  rw [sin_add_nat_mul_pi]

/-- `halfTurns` counts the half-turns of j·ψ. -/
theorem halfTurns_spec {p d : Int} {ψ : ℝ} (hd : 0 < d) (h0 : 0 < ψ) (hπ : ψ < π)
    (hcos : cos ψ = (p : ℝ) / d) (j : Nat) :
    ((halfTurns p d j).1 : ℝ) * π ≤ j * ψ ∧ j * ψ < ((halfTurns p d j).1 + 1) * π ∧
    (d : ℝ) * (halfTurns p d j).2.1 * sin ψ = d ^ j * sin (j * ψ) ∧
    ((halfTurns p d j).2.2 : ℝ) * sin ψ = d ^ j * sin ((j + 1) * ψ) := by
  have hd' : (0 : ℝ) < d := by exact_mod_cast hd
  induction j with
  | zero => simp [halfTurns, pi_pos]
  | succ j ih =>
    obtain ⟨hlo, hhi, hS, hS'⟩ := ih
    generalize hr : halfTurns p d j = r at *
    obtain ⟨h, S, S'⟩ := r
    dsimp only at *
    have hstep : (((2 * p * S' - d * d * S : Int)) : ℝ) * sin ψ = d ^ (j + 1) * sin ((j + 1 + 1) * ψ) := by
      have e1 : sin (((j : ℝ) + 1 + 1) * ψ) = 2 * cos ψ * sin ((j + 1) * ψ) - sin (j * ψ) := by
        rw [show ((j : ℝ) + 1 + 1) * ψ = (j + 1) * ψ + ψ by ring,
          show (j : ℝ) * ψ = (j + 1) * ψ - ψ by ring, sin_add, sin_sub]; ring
      have e2 : (d : ℝ) * cos ψ = p := by rw [hcos]; field_simp
      rw [e1]; push_cast
      linear_combination 2 * (p : ℝ) * hS' - d * hS - 2 * (d : ℝ) ^ j * sin ((j + 1) * ψ) * e2
    have hsψ : 0 < sin ψ := sin_pos_of_pos_of_lt_pi h0 hπ
    have hdj : (0 : ℝ) < d ^ j := by positivity
    -- the sign of S' is the sign of sin ((j+1)ψ), hence says which half-turn (j+1)ψ lies in
    have hy : sin (((j : ℝ) + 1) * ψ) = (-1) ^ h * sin ((j + 1) * ψ - h * π) := by
      rw [← sin_halfTurn]; congr 1; ring
    have hstays : (if h % 2 = 0 then 0 < S' else S' < 0) ↔ ((j : ℝ) + 1) * ψ < (h + 1) * π := by
      have hlow : 0 < ((j : ℝ) + 1) * ψ - h * π := by linarith
      have hup : ((j : ℝ) + 1) * ψ - h * π < 2 * π := by linarith
      have hpos : 0 < sin (((j : ℝ) + 1) * ψ - h * π) ↔ ((j : ℝ) + 1) * ψ < (h + 1) * π := by
        constructor
        · intro hs
          by_contra hc
          have := sin_nonneg_of_nonneg_of_le_pi (x := ((j : ℝ) + 1) * ψ - h * π - π) (by linarith) (by linarith)
          rw [sin_sub_pi] at this
          linarith
        · intro hl
          exact sin_pos_of_pos_of_lt_pi hlow (by linarith)
      rw [← hpos]
      generalize sin (((j : ℝ) + 1) * ψ - h * π) = y at *
      rcases Nat.mod_two_eq_zero_or_one h with he | ho
      · rw [if_pos he, (Nat.even_iff.2 he).neg_one_pow, one_mul] at *
        rw [hy] at hS'
        rw [← Int.cast_pos (R := ℝ)]
        constructor <;> intro hh
        · exact pos_of_mul_pos_right (hS' ▸ mul_pos hh hsψ) hdj.le
        · exact pos_of_mul_pos_left (hS' ▸ mul_pos hdj hh) hsψ.le
      · rw [if_neg (by omega), (Nat.odd_iff.2 ho).neg_one_pow] at *
        rw [hy] at hS'
        rw [← Int.cast_lt_zero (R := ℝ)]
        constructor <;> intro hh
        · have := mul_neg_of_neg_of_pos hh hsψ
          by_contra hc
          nlinarith
        · have := mul_pos hdj hh
          by_contra hc
          nlinarith
    simp only [halfTurns, hr]
    refine ⟨?_, ?_, ?_, ?_⟩
    · by_cases hc : (if h % 2 = 0 then 0 < S' else S' < 0)
      · rw [if_pos hc]; push_cast; linarith
      · rw [if_neg hc]; rw [hstays] at hc; push_cast; linarith
    · by_cases hc : (if h % 2 = 0 then 0 < S' else S' < 0)
      · rw [if_pos hc]; rw [hstays] at hc; push_cast; linarith
      · rw [if_neg hc]; push_cast; linarith
    · push_cast; rw [mul_assoc, hS']; ring
    · push_cast at hstep ⊢; exact hstep

/-- The cosine's angle lies in 0 to π. -/
theorem cosineAngle_spec {m sr : Nat} (hm : m < sr) :
    cosineAngle m sr ≤ 2 * sr ∧ sin (2 * π * m / sr) = cos (π * cosineAngle m sr / (2 * sr)) := by
  have hsr : (sr : ℝ) ≠ 0 := by have : 0 < sr := by omega
                                positivity
  unfold cosineAngle
  split
  · rename_i h
    refine ⟨by omega, ?_⟩
    rw [← cos_pi_div_two_sub, Nat.cast_sub h]; congr 1; push_cast; field_simp; ring
  · split <;> rename_i h h'
    · refine ⟨by omega, ?_⟩
      rw [← cos_pi_div_two_sub, ← cos_neg, Nat.cast_sub (by omega)]; congr 1; push_cast; field_simp; ring
    · refine ⟨by omega, ?_⟩
      rw [← cos_pi_div_two_sub, ← cos_add_two_pi, Nat.cast_sub (by omega)]; congr 1; push_cast; field_simp; ring

/-- The exact comparison is one. -/
theorem sineAtLeast_iff {q : Int} {m sr : Nat} (hm : m < sr) :
    sineAtLeast q m sr = true ↔ (q : ℝ) ≤ realTone m sr := by
  have hs0 : 0 < sr := by omega
  have hsr : (0 : ℝ) < sr := by exact_mod_cast hs0
  obtain ⟨hk, hsin⟩ := cosineAngle_spec hm
  have hiff : (q : ℝ) ≤ realTone m sr ↔ ((3 * q : Int) : ℝ) / (sr : Int) ≤ sin (2 * π * m / sr) := by
    rw [realTone]; push_cast; rw [div_le_iff₀ hsr]; constructor <;> intro h <;> linarith
  rw [hiff, hsin]
  set k := cosineAngle m sr
  set θ : ℝ := π * k / (2 * sr) with hθ
  have hk' : (k : ℝ) ≤ 2 * sr := by exact_mod_cast hk
  have hθ0 : 0 ≤ θ := by positivity
  have hθπ : θ ≤ π := by rw [hθ, div_le_iff₀ (by positivity)]; nlinarith [pi_pos]
  unfold sineAtLeast
  split
  · rename_i h
    have : (1 : ℝ) < ((3 * q : Int) : ℝ) / (sr : Int) := by
      rw [lt_div_iff₀ (by exact_mod_cast hsr), one_mul]; exact_mod_cast h
    simp only [Bool.false_eq_true, false_iff, not_le]
    linarith [cos_le_one θ]
  · split
    · rename_i h1 h
      have : ((3 * q : Int) : ℝ) / (sr : Int) = 1 := by
        rw [h]; exact div_self (by exact_mod_cast hsr.ne')
      rw [this, decide_eq_true_iff]
      constructor
      · intro hz; change k = 0 at hz; rw [hθ, hz]; simp
      · intro hc
        have hz : θ = 0 := by
          by_contra hne
          have := cos_lt_cos_of_nonneg_of_le_pi (le_refl 0) hθπ (lt_of_le_of_ne hθ0 (Ne.symm hne))
          rw [cos_zero] at this; linarith
        rw [hθ, div_eq_zero_iff] at hz
        rcases hz with hz | hz
        · have := (mul_eq_zero.1 hz).resolve_left pi_ne_zero
          exact_mod_cast this
        · linarith
    · split
      · rename_i h1 h2 h
        have : ((3 * q : Int) : ℝ) / (sr : Int) ≤ -1 := by
          rw [div_le_iff₀ (by exact_mod_cast hsr)]; exact_mod_cast (by omega : 3 * q ≤ -1 * (sr : Int))
        simp only [true_iff]
        linarith [neg_one_le_cos θ]
      · rename_i h1 h2 h3
        set c : ℝ := ((3 * q : Int) : ℝ) / (sr : Int) with hc
        have hcl : -1 < c := by
          rw [hc, lt_div_iff₀ (by exact_mod_cast hsr)]; exact_mod_cast (by omega : -1 * (sr : Int) < 3 * q)
        have hcu : c < 1 := by
          rw [hc, div_lt_one (by exact_mod_cast hsr)]; exact_mod_cast (by omega : 3 * q < (sr : Int))
        have hcos := cos_arccos hcl.le hcu.le
        have hψ0 : 0 < arccos c := arccos_pos.2 hcu
        have hψπ : arccos c < π := lt_of_le_of_ne (arccos_le_pi c) (fun h => by
          rw [arccos_eq_pi] at h; linarith)
        obtain ⟨hlo, hhi, -, -⟩ := halfTurns_spec (by exact_mod_cast hs0 : (0 : Int) < sr) hψ0 hψπ
          (hcos.trans hc) (2 * sr)
        generalize (halfTurns (3 * q) sr (2 * sr)).1 = h at *
        rw [decide_eq_true_iff]
        have hcmp : c ≤ cos θ ↔ θ ≤ arccos c := by
          constructor
          · intro hle
            by_contra hlt
            have := cos_lt_cos_of_nonneg_of_le_pi hψ0.le hθπ (not_le.1 hlt)
            rw [hcos] at this; linarith
          · intro hle
            have := cos_le_cos_of_nonneg_of_le_pi hθ0 hψπ.le hle
            rwa [hcos] at this
        rw [hcmp, hθ, div_le_iff₀ (by positivity)]
        push_cast at hlo hhi
        constructor
        · intro hle
          have : (k : ℝ) ≤ h := by exact_mod_cast hle
          nlinarith [pi_pos]
        · intro hle
          have : (k : ℝ) * π < (h + 1) * π := by linarith
          have := lt_of_mul_lt_mul_right this pi_pos.le
          have : k < h + 1 := by exact_mod_cast this
          omega
end Sys2Proof.Machine
end

