-- ==== Sys2Proof/Laws/Slots.lean ====
section
/-! SUPPORT. Slots that obey rule R26, what the invariant reads of a state, and the samples of a slot
(42_synthesizer.md rules R170 to R177). -/

namespace Sys2Proof.Machine

theorem symbolSlot_ok (y : Symbol) {sr : Word32} (h : rateLegal sr) : (symbolSlot y sr).Ok := by
  have : sr.toNat ≠ 0 := fun h0 => h (BitVec.eq_of_toNat_eq h0)
  exact ⟨by simp [symbolSlot], by simp [symbolSlot], by simp only [symbolSlot]; omega⟩

theorem minuteSlot_ok (f : FrameData) {start : BitVec 6} {sr : Word32} (hs : startLegal start)
    (h : rateLegal sr) : (minuteSlot f start sr).Ok := by
  have h0 : sr.toNat ≠ 0 := fun h0 => h (BitVec.eq_of_toNat_eq h0)
  have h1 : start.toNat ≤ 59 := hs
  refine ⟨?_, ?_, ?_⟩ <;> simp [minuteSlot, frameSymbols] <;> omega

/-- Every record a command queues obeys rule R26. -/
theorem Queues.ok {s : State} {i : Instr} {e : Slot} (h : Queues s i e) : e.Ok := by
  cases h with
  | syns hy hr => exact symbolSlot_ok _ hr
  | synm hs hr hf => exact minuteSlot_ok _ hs hr

theorem Slot.start_ok {e : Slot} (h : e.Ok) : e.start.Ok := ⟨h, h.1, h.2.2⟩

/-- Fault entry reaches a state that obeys the invariant. -/
theorem raiseFault_inv {s : State} (h : s.consumed ≤ s.out.length) {c : Cause} (hc : c ≠ .none)
    (w : Word64) : (raiseFault c w s).Inv where
  nextBehindCur := by simp [State.nextFull]
  faultedIsQuiet := by simp [State.nextFull, State.curBusy]
  faultHasCause := by simp [hc]
  fcmdUntouched := by simp
  curOk := by simp
  nextOk := by simp
  consumedEmitted := h

/-- The invariant reads these fields only. -/
theorem State.Inv.congr {s t : State} (h : s.Inv) (h1 : t.fault = s.fault) (h2 : t.cause = s.cause)
    (h3 : t.fcmd = s.fcmd) (h4 : t.cur = s.cur) (h5 : t.next = s.next) (h6 : t.consumed ≤ t.out.length) :
    t.Inv where
  nextBehindCur := by simpa [State.nextFull, State.curBusy, h4, h5] using h.nextBehindCur
  faultedIsQuiet := by simpa [State.nextFull, State.curBusy, h1, h4, h5] using h.faultedIsQuiet
  faultHasCause := by rw [h1, h2]; exact h.faultHasCause
  fcmdUntouched := by rw [h1, h3]; exact h.fcmdUntouched
  curOk := by rw [h4]; exact h.curOk
  nextOk := by rw [h5]; exact h.nextOk
  consumedEmitted := h6

/-! ### Samples -/

theorem wave_length (sym : Symbol) (sr : Word32) : (wave sym sr).length = sr.toNat := by simp [wave]

theorem waveform_length (e : Slot) : e.waveform.length = e.syms.length * e.sr.toNat := by
  unfold Slot.waveform
  induction e.syms with
  | nil => simp
  | cons y ys ih => simp [ih, wave_length]; ring

/-- The samples from position (k, i) on begin with that position's sample. -/
theorem drop_waveform (ys : List Symbol) (sr : Word32) {k i : Nat} {y : Symbol} (hk : ys[k]? = some y)
    (hi : i < sr.toNat) :
    (ys.flatMap fun y => wave y sr).drop (k * sr.toNat + i) =
      sampleAt y i sr :: (ys.flatMap fun y => wave y sr).drop (k * sr.toNat + i + 1) := by
  induction ys generalizing k with
  | nil => simp at hk
  | cons z zs ih =>
    rw [List.flatMap_cons]
    cases k with
    | zero =>
      obtain rfl : z = y := by simpa using hk
      have hl : i < (wave z sr).length := by rw [wave_length]; exact hi
      simp only [Nat.zero_mul, Nat.zero_add]
      rw [List.drop_append_of_le_length (by omega), List.drop_append_of_le_length (by omega),
        List.drop_eq_getElem_cons hl]
      simp [wave]
    | succ k =>
      have e : (k + 1) * sr.toNat + i = (wave z sr).length + (k * sr.toNat + i) := by
        rw [wave_length]; ring
      rw [e, Nat.add_assoc, List.drop_length_add_append, List.drop_length_add_append,
        ih (by simpa using hk)]

/-- The samples CUR has left begin with the one SYN emits next. -/
theorem remaining_cons {c : Playing} {y : Symbol} (hy : c.slot.syms[c.ps]? = some y)
    (hi : c.pi < c.slot.sr.toNat) :
    c.remaining =
      sampleAt y c.pi c.slot.sr :: c.slot.waveform.drop (c.ps * c.slot.sr.toNat + c.pi + 1) :=
  drop_waveform _ _ hy hi

end Sys2Proof.Machine
end

