-- ==== Sys2Proof/Tests/Slice0.lean ====
section
/-! SUPPORT. The model's own tests. Expected values come from 95_test_vectors.md (named V-…), else from the
rule a docstring names. The last part shows, for every statement with hypotheses, states and operands that
meet them together. -/

namespace Sys2Proof.Tests
open Sys2Proof.Machine Sys2Proof.Claims

-- One test at a time: checked side by side, their threads' stacks alone pass the memory limit.
set_option Elab.async false

/-! ### Small states -/

/-- The reset state, about to issue `cmd`. -/
def issuing (cmd : Word64) : State := pushTurn (.issue cmd) State.reset

/-- The reset state with the V-ENC-1 frame. -/
def framed : State := writeFrame 0x0490755A76F40000 State.reset

/-- The last three positions of the V-ENC-1 frame, as V-SYN-5 queues them. -/
def tail : Slot := { syms := [.zero, .one, .term], base := 57, sr := 12 }

/-- A second of `'1'`, as V-SYN-2 queues it. -/
def second : Slot := { syms := [.one], base := 0, sr := 12 }

/-- Both slots full: `tail` at its sample `pi` of symbol `ps`, `second` waiting. -/
def playingAt (ps pi : Nat) : State := { framed with cur := some ⟨tail, ps, pi⟩, next := some second }

/-- V-ENC-1's operands. -/
def march15 : CivilTime := ⟨37, 13, 15, 5, 3, 24, 0⟩

/-- A faulted block: RANGE by the word of SYNS SYM=0, SR=0. -/
def failed : State := raiseFault .range 0x4 framed

/-- A field of the state a step answers. -/
def seen {α : Type} (view : State → α) : Outcome → Option α
  | .next t => some (view t)
  | .fault _ => none
  | .refused _ => none

/-- RESULT or FRAME with STATUS. -/
def resultStatus (s : State) : Word32 × Word32 := (s.result, s.status)
def frameStatus (s : State) : Word64 × Word32 := (s.frameWord, s.status)
def faultStatus (s : State) : Word32 × Word64 := (s.status, s.fcmd)

/-! ### Well-formedness: the one check, and what it does not refuse -/

theorem test_wf_refuses_symbol_three : (Instr.syns 3 1).wellFormed = false := by decide
theorem test_wf_takes_out_of_range_operands :
    (Instr.syns 2 0).wellFormed = true ∧ (Instr.synm 63 0).wellFormed = true ∧
    (Instr.bcd 15 255).wellFormed = true ∧ (Instr.encode ⟨63, 31, 31, 7, 15, 127, 1⟩).wellFormed = true := by
  decide

/-! ### Decoding: words written out from rules R72 to R78, the highest field on the left -/

theorem test_decode_nop : decode 0x0000000000000000 = some .nop := by decide

/-- dst=1, year=99, mon=2, wday=6, day=31, hour=0, min=0 (V-ENC-11). -/
theorem test_decode_encode :
    decode 0b00000000000000000000000000000_1_1100011_0010_110_11111_00000_000000_0001 =
      some (.encode ⟨0, 0, 31, 6, 2, 99, 1⟩) := by decide

/-- data=0x090755, reserved, len=22 (V-PAR-7). -/
theorem test_decode_parity : decode 0x0000_0009_0755_0162 = some (.parity 22 0x090755) := by decide

/-- val=159, w=8 (V-BCD-22). -/
theorem test_decode_bcd : decode 0b10011111_1000_0011 = some (.bcd 8 159) := by decide

/-- sr=12, reserved, sym=1 (V-SYN-2). -/
theorem test_decode_syns : decode 0b1100_00000000000000000000000000_01_0100 = some (.syns 1 12) := by decide

/-- sr=12, reserved, start=57 (V-SYN-5). -/
theorem test_decode_synm : decode 0b1100_0000000000000000000000_111001_0101 = some (.synm 57 12) := by decide

theorem test_decode_abort : decode 0x0000000000000006 = some .abort := by decide

theorem test_decode_ldfr : decode 0x490755A76F400007 = some (.ldfr 0x0490755A76F40000) := by decide

/-- Reserved opcodes and reserved bits (rule R80). -/
theorem test_decode_refuses : decode 0x8 = none ∧ decode 0xF = none ∧ decode 0x10 = none ∧
    decode (0x1 <<< 63) = none ∧ decode 0x0000000800000001 = none ∧ decode 0x0000000000370472 = none ∧
    decode 0x0000000000010133 = none ∧ decode 0x0000000C00000034 = none ∧ decode 0x0000000C00000044 = none ∧
    decode 0x0000000C00000405 = none ∧ decode 0x16 = none ∧ decode 0x8000000000000007 = none := by decide

theorem test_decode_table_word : decodeTableWord 32 0xC1D7B651 = some (.encode march15) := by decide

/-! ### The commands, one step each -/

theorem test_nop : seen State.status (step (issuing 0x0)) = some 0 := by decide

/-- V-ENC-1. -/
theorem test_encode : seen frameStatus (step (issuing 0x00000000C1D7B651)) =
    some (0x0490755A76F40000, 0x00000100) := by decide +kernel

/-- V-ENC-8, with every field but DST at its largest value. -/
theorem test_encode_largest : seen frameStatus (step (issuing 0x000000031E4FDFB1)) =
    some (0x0266531C6B340000, 0x00000100) := by decide +kernel

/-- ENCODE with minute 60 faults with RANGE (rule R110). -/
theorem test_encode_range : seen faultStatus (step (issuing (encode (.encode ⟨60, 0, 1, 0, 1, 0, 0⟩)))) =
    some (0x7, encode (.encode ⟨60, 0, 1, 0, 1, 0, 0⟩)) := by decide +kernel

/-- V-BCD-22. -/
theorem test_bcd : seen resultStatus (step (issuing 0x0000000000009F83)) = some (0xF9, 0x80) := by
  decide +kernel

/-- V-BCD-26: ILLEGAL_OPERAND beats RANGE. -/
theorem test_bcd_priority : seen faultStatus (step (issuing 0x000000000000FF03)) = some (0x5, 0xFF03) := by
  decide +kernel

/-- V-PAR-10. -/
theorem test_parity : seen resultStatus (step (issuing 0xFFFFFFFFFFFF02F2)) = some (1, 0x80) := by
  decide +kernel

/-- V-PAR-11. -/
theorem test_parity_operand : seen faultStatus (step (issuing 0x0000000000000312)) = some (0x5, 0x312) := by
  decide +kernel

/-- V-SYN-2. -/
theorem test_syns : seen (fun t => (t.status, t.cur)) (step (issuing 0x0000000C00000014)) =
    some (0x20, some ⟨second, 0, 0⟩) := by decide +kernel

/-- Both slots full (rule R170). -/
theorem test_syns_overrun : seen faultStatus (step (pushTurn (.issue 0x0000000C00000014) (playingAt 0 0))) =
    some (0x10B, 0x0000000C00000014) := by decide +kernel

/-- V-SYN-5. -/
theorem test_synm : seen (fun t => (t.status, t.cur, t.pos)) (step (pushTurn (.issue 0x0000000C00000395) framed)) =
    some (0x120, some ⟨tail, 0, 0⟩, 0x0000003900000000) := by decide +kernel

/-- Without a frame, and with START = 60 first (rule R237). -/
theorem test_synm_faults :
    seen State.status (step (issuing 0x0000000C00000395)) = some 0x9 ∧
    seen State.status (step (issuing 0x0000000C000003C5)) = some 0x7 := by decide +kernel

/-- ABORT empties both slots and keeps FRAME (rule R173). -/
theorem test_abort : seen State.status (step (pushTurn (.issue 0x6) (playingAt 1 5))) = some 0x100 := by
  decide +kernel

/-- V-ENC-1's LDFR word. -/
theorem test_ldfr : seen frameStatus (step (issuing 0x490755A76F400007)) =
    some (0x0490755A76F40000, 0x00000100) := by decide +kernel

/-- An illegal word faults; a word issued while faulted is discarded (rule R236). -/
theorem test_illegal_and_gate :
    seen faultStatus (step (issuing 0x8)) = some (0x3, 0x8) ∧
    seen faultStatus (step (pushTurn (.issue 0x8) failed)) = some (0x107, 0x4) := by decide +kernel

/-! ### The other turns -/

/-- The step of CUR's last sample: the sample is out and NEXT is in CUR (rules R175, R176). -/
theorem test_syn_swap : seen (fun t => (t.out.map fun x => (x.q.toInt, x.sr), t.cur, t.next)) (step (playingAt 2 11)) =
    some ([(0, 12)], some ⟨second, 0, 0⟩, none) := by decide +kernel

/-- Sample 5 of `'1'` at 12 Hz is 3 (V-SYN-2), the position moves on (rule R175). -/
theorem test_syn_sample : seen (fun t => (t.out.map fun x => x.q.toInt, t.pos)) (step (playingAt 1 5)) =
    some ([3], 0x0000003A00000006) := by decide +kernel

/-- The same step as a scheduled turn, before a turn of the host (rules R56, R175). -/
theorem test_syn_scheduled :
    seen (fun t => (t.out.map fun x => x.q.toInt, t.pos, t.schedule))
      (step (pushTurn .syn (pushTurn (.read 3) (playingAt 1 5)))) =
    some ([3], 0x0000003A00000006, [.read 3]) := by decide +kernel

/-- POS and STATUS as the host reads them (rules R22, R27). -/
theorem test_read :
    seen State.reply (step (pushTurn (.read 3) (playingAt 1 5))) = some (some (.word64 0x0000003A00000005)) ∧
    seen State.reply (step (pushTurn (.read 0) (playingAt 1 5))) = some (some (.word32 0x160)) := by decide +kernel

/-- Reset empties everything and keeps PREAMBLE (rule R260). -/
theorem test_reset : seen (fun t => (t.status, t.fcmd, t.cfg)) (step (pushTurn .reset { failed with cfg := ⟨5⟩ })) =
    some (0, 0, ⟨5⟩) := by decide +kernel

theorem test_consume : seen (fun t => (t.consumed, t.reply))
      (step (pushTurn .consume { framed with out := [⟨1, 12⟩, ⟨2, 12⟩], consumed := 1 })) =
    some (2, some (.sample ⟨2, 12⟩)) := by decide +kernel

/-! ### The sample function -/

/-- V-Q-1 to V-Q-9. -/
theorem test_qsin_12 : [0, 1, 2, 3, 4, 6, 8, 9, 11].map (qsin · 12) = [0, 2, 3, 4, 3, 0, -4, -4, -2] := by
  decide +kernel

/-- V-Q-18, V-Q-19, V-Q-21. -/
theorem test_qsin_real_rates :
    qsin 7350 44100 = 12730 ∧ qsin 36750 44100 = -12731 ∧ qsin 6000 8000 = -2667 := by decide +kernel

/-- The exact comparison on V-SYN-9's rate: floor(sin(2π·m/7)·7/3) for m = 1..6 is 1, 2, 1, -2, -3, -2. -/
theorem test_exact_comparison :
    [1, 2, 3, 4, 5, 6].map (fun m => (sineAtLeast 1 m 7, sineAtLeast 2 m 7, sineAtLeast (-2) m 7)) =
      [(true, false, true), (true, true, true), (true, false, true),
       (false, false, true), (false, false, false), (false, false, true)] := by decide +kernel

/-- V-SYN-1. -/
theorem test_wave_12 :
    (wave .zero 12).map (fun x => x.q.toInt) = [0, 0, 3, 0, -4, 3, 0, -4, 3, 0, -4, 3] ∧
    (wave .one 12).map (fun x => x.q.toInt) = [0, 0, 0, 0, -4, 3, 0, -4, 3, 0, -4, 3] := by decide +kernel

/-- V-SYN-11. -/
theorem test_wave_11 :
    (wave .one 11).map (fun x => x.q.toInt) = [0, 0, 0, 3, 2, 1, -2, -3, -4, -4, -2] := by decide +kernel

/-- V-SYN-14 and V-SYN-18, single samples. -/
theorem test_samples_at_real_rates :
    sampleCode .zero 4411 44100 = 11812 ∧ sampleCode .zero 4409 44100 = 0 ∧ sampleCode .zero 804 8000 = -2667 := by
  decide +kernel

/-! ### Notation and bus -/

/-- Rule R215: a line of text. -/
theorem test_assemble :
    Asm.assemble "ENCODE  min=37, hour=13, day=15, wday=5, mon=3, year=24, dst=0".toList = some 0xC1D7B651 ∧
    Asm.assemble "SYNS sym=1, sr=12".toList = some 0x0000000C00000014 ∧
    Asm.assemble "BCD w=16, val=0".toList = none := by decide +kernel

/-- Rule R216: TXQUEUE. -/
theorem test_pseudo : Asm.Pseudo.expand (.txqueue ⟨0, 0, 1, 0, 1, 0, 0⟩ 12) =
    [.encode ⟨0, 0, 1, 0, 1, 0, 0⟩, .synm 0 12] := by decide

theorem test_bus : busBytes .lowByteFirst 0x0102030405060708 = [8, 7, 6, 5, 4, 3, 2, 1] ∧
    wordOfBus .highByteFirst [1, 2, 3, 4, 5, 6, 7, 8] = some 0x0102030405060708 := by decide

/-! ### Witnesses: states and operands that meet the hypotheses of each statement together, one for each
clause, at the ends of its range. Statements without hypotheses need none. -/

theorem tail_ok : tail.Ok := by unfold Slot.Ok; decide
theorem second_ok : second.Ok := by unfold Slot.Ok; decide

/-- A playing state obeys the invariant as long as its position is within `tail`. -/
theorem playingAt_inv {ps pi : Nat} (h : ps < 3) (h' : pi < 12) : (playingAt ps pi).Inv where
  nextBehindCur := fun _ => rfl
  faultedIsQuiet := nofun
  faultHasCause := ⟨fun _ => rfl, fun _ => rfl⟩
  fcmdUntouched := fun _ => rfl
  curOk := by rintro _ ⟨⟩; exact ⟨tail_ok, h, h'⟩
  nextOk := by rintro _ ⟨⟩; exact second_ok
  consumedEmitted := Nat.le_refl 0

theorem failed_inv : failed.Inv := raiseFault_inv (s := framed) (Nat.le_refl 0) (by decide) _

/-- Two well-formed commands with every operand bit set, and a word that decodes. -/
theorem witness_DecodeAndEncodeAgree :
    (Instr.ldfr (BitVec.allOnes 59)).wellFormed = true ∧ (Instr.syns 2 0xFFFFFFFF).wellFormed = true ∧
    decode 0x7FFFFFFFFFFFFFF7 = some (.ldfr (BitVec.allOnes 59)) := by decide

theorem witness_DecodeFollowsTheOpcodeTable :
    decode 0xFFFFFFFF00000024 = some (.syns 2 0xFFFFFFFF) ∧
    OpcodeRow.selects ⟨"SYNS", 0x0000000000000004, 0x00000000FFFFFFCF⟩ 0xFFFFFFFF00000024 := by
  unfold OpcodeRow.selects; decide

/-- One word for each way to be illegal, and the states that issue them. -/
theorem witness_IllegalWordsRaiseIllegalCmd :
    Illegal 0x8 ∧ Illegal 0xF ∧ Illegal 0x10 ∧
    Illegal 0x8000000000000006 ∧ Illegal 0x0000000800000001 ∧ Illegal 0x0000000000370472 ∧
    Illegal 0x0000000000010133 ∧ Illegal 0x0000000C00000044 ∧ Illegal 0x0000000C00000405 ∧
    Illegal 0x8000000000000007 ∧ Illegal 0x0000000C00000034 ∧
    ∀ w, (issuing w).fault = false ∧ (issuing w).schedule = .issue w :: [] := by
  refine ⟨?_, ?_, ?_, ?_, ?_, ?_, ?_, ?_, ?_, ?_, ?_, fun w => ⟨rfl, rfl⟩⟩ <;> (unfold Illegal; decide)

theorem witness_StepRunsTheIssuedCommand :
    (issuing 0x16F3).schedule = .issue 0x16F3 :: [] ∧ decode 0x16F3 = some (.bcd 15 22) ∧
    decodeTableWord 32 0xC1D7B651 = some (.encode march15) := by decide

theorem witness_EveryStepCompletes :
    (playingAt 2 11).Inv ∧ (playingAt 2 11).schedule = [] ∧ (pushTurn .syn failed).Inv :=
  ⟨playingAt_inv (by decide) (by decide), rfl, failed_inv.congr rfl rfl rfl rfl rfl (Nat.le_refl 0)⟩

theorem witness_EveryStepKeepsTheInvariant :
    (playingAt 2 11).Inv ∧ seen (fun _ => ()) (step (playingAt 2 11)) = some () :=
  ⟨playingAt_inv (by decide) (by decide), by decide +kernel⟩

/-- OVERRUN in a state whose slots are full. -/
theorem witness_FaultEntryIsPrecise :
    (playingAt 0 0).fault = false ∧
    (pushTurn (.issue 0x0000000C00000014) (playingAt 0 0)).schedule = .issue 0x0000000C00000014 :: [] ∧
    seen State.fault (step (pushTurn (.issue 0x0000000C00000014) (playingAt 0 0))) = some true := by
  decide +kernel

/-- A word that meets two conditions at once: RANGE and OVERRUN, in one state. -/
theorem witness_SmallestCauseCodeWins :
    Meets 0x0000000000000014 (playingAt 0 0) .range ∧ Meets 0x0000000000000014 (playingAt 0 0) .overrun ∧
    seen State.cause (step (pushTurn (.issue 0x0000000000000014) (playingAt 0 0))) = some .range := by
  refine ⟨.inr (.inr (.inl ⟨1, 0, by decide, by decide⟩)), ⟨.inl ⟨1, 0, by decide⟩, ?_, ?_⟩, ?_⟩
  · decide
  · decide
  · decide +kernel

/-- A faulted block with each of the turns the clauses name; one more that answers a next state. -/
theorem witness_FaultIsFatalUntilReset :
    failed.fault = true ∧ (pushTurn .syn failed).Inv ∧ (pushTurn (.read 4) failed).schedule = .read 4 :: [] ∧
    seen State.fault (step (pushTurn (.issue 0x6) failed)) = some true :=
  ⟨rfl, failed_inv.congr rfl rfl rfl rfl rfl (Nat.le_refl 0), rfl, by decide +kernel⟩

theorem witness_NopChangesNothing : field 0x8000000000000000 0 4 = 0 ∧ field 0x8000000000000000 4 60 ≠ 0 := by
  decide

/-- Every operand at its least and at its greatest value, one past the range, and a reserved bit. -/
theorem witness_EncodeWritesTheMinuteFrame :
    State.reset.fault = false ∧ InRange ⟨0, 0, 1, 0, 1, 0, 0⟩ ∧ InRange ⟨59, 23, 31, 6, 12, 99, 1⟩ ∧
    ¬ InRange ⟨60, 23, 31, 6, 12, 99, 1⟩ ∧ ¬ InRange ⟨0, 0, 0, 0, 1, 0, 0⟩ ∧
    field 0x0000000800000001 0 4 = 1 ∧ field 0x0000000800000001 35 29 ≠ 0 := by
  unfold InRange; decide

/-- Every operand at its greatest value. -/
theorem witness_EncodeFieldsDecodeBack :
    State.reset.fault = false ∧ InRange ⟨59, 23, 31, 6, 12, 99, 1⟩ ∧
    seen State.frame (exec (.encode ⟨59, 23, 31, 6, 12, 99, 1⟩) State.reset) ≠ none := by
  unfold InRange; decide +kernel

theorem witness_EncodeFramesAreWellFormedFrames :
    State.reset.fault = false ∧ InRange ⟨0, 0, 1, 0, 1, 0, 0⟩ ∧
    seen State.frame (exec (.encode ⟨0, 0, 1, 0, 1, 0, 0⟩) State.reset) = some 0x0000201000140000 := by
  unfold InRange; decide +kernel

/-- Two states with equal configurations and nothing else in common. -/
theorem witness_EncodeDependsOnOperandsOnly :
    State.reset.fault = false ∧ (playingAt 1 5).fault = false ∧ State.reset.cfg = (playingAt 1 5).cfg ∧
    InRange march15 ∧ seen State.frame (exec (.encode march15) State.reset) ≠ none ∧
    seen State.frame (exec (.encode march15) (playingAt 1 5)) ≠ none := by
  unfold InRange; decide +kernel

/-- A position of each kind, and the ends of the range of `start`. -/
theorem witness_FrameSymbolsFollowTheData :
    framed.frame.getLsbD 58 = true ∧ framed.frame.getLsbD 57 = false ∧ (0 : Nat) ≤ 59 ∧ (0 : Nat) < 60 - 59 := by
  decide

/-- Both cases of the law, each at the largest value its width takes. -/
theorem witness_BcdFieldDecodesBack : fits 159 8 ∧ (1 : Nat) ≤ 8 ∧ fits 19 5 ∧ fits 15 4 ∧ fits 1 1 := by decide

theorem witness_BcdWritesTheField :
    State.reset.fault = false ∧ (1 : Nat) ≤ (1 : BitVec 4).toNat ∧ (8 : BitVec 4).toNat ≤ 8 ∧
    fits (1 : BitVec 8).toNat (1 : BitVec 4).toNat ∧ fits (159 : BitVec 8).toNat (8 : BitVec 4).toNat ∧
    (0 : BitVec 4).toNat = 0 ∧ 8 < (9 : BitVec 4).toNat ∧ ¬ fits (160 : BitVec 8).toNat (8 : BitVec 4).toNat ∧
    field 0x0000000000010133 0 4 = 3 ∧ field 0x0000000000010133 16 48 ≠ 0 := by decide

theorem witness_BcdCornerCases : (4 : Nat) < 5 ∧ (4 : Nat) ≤ 4 := by decide

theorem witness_LdfrLoadsTheFrame :
    State.reset.fault = false ∧ field 0x8000000000000007 0 4 = 7 ∧ field 0x8000000000000007 63 1 ≠ 0 := by decide

theorem witness_ParityWritesTheBit :
    State.reset.fault = false ∧ (0 : BitVec 6).toNat ≤ 48 ∧ (48 : BitVec 6).toNat ≤ 48 ∧
    48 < (49 : BitVec 6).toNat ∧ 48 < (63 : BitVec 6).toNat ∧
    field 0x0000000000370472 0 4 = 2 ∧ field 0x0000000000370472 10 6 ≠ 0 := by decide

/-- Two strings that agree below bit 1 only, and the two commands in a row. -/
theorem witness_ParityCornerCases :
    (∀ k < 1, (0xFFFFFFFFFFFE : BitVec 48).getLsbD k = (0 : BitVec 48).getLsbD k) ∧
    State.reset.fault = false ∧ (48 : BitVec 6).toNat ≤ 48 ∧
    seen State.result (exec (.parity 48 (BitVec.allOnes 48)) State.reset) = some 0 ∧ InRange march15 ∧
    seen State.frame (exec (.encode march15) State.reset) = some 0x0490755A76F40000 ∧
    seen State.result (exec (.parity 22 0x090755) framed) = some 1 := by
  unfold InRange; decide +kernel

theorem witness_PosShowsThePosition :
    State.reset.cur = none ∧ (playingAt 2 11).Inv ∧ (playingAt 2 11).cur = some ⟨tail, 2, 11⟩ :=
  ⟨rfl, playingAt_inv (by decide) (by decide), rfl⟩

/-- A read of each implemented register and of the first unimplemented number. -/
theorem witness_ReadsAnswerTheRegisters :
    (∀ n ∈ [0, 1, 2, 3, 4, 5], (pushTurn (.read n) framed).schedule = .read n :: []) ∧
    framed.frameValid = true ∧ (writeResult 1 framed).resultValid = true := by decide

/-- Two reads in a row of RESULT while it is unwritten, and of FCMD. -/
theorem witness_RepeatedReadsAgree :
    (∀ n ∈ [1, 4], n ≤ 4 ∧
      (pushTurn (.read n) (pushTurn (.read n) failed)).schedule = .read n :: .read n :: []) ∧
    (∀ n ∈ [1, 4], seen State.fault (step (pushTurn (.read n) (pushTurn (.read n) failed))) = some true) ∧
    seen State.reply (step (pushTurn (.read 4) failed)) = some (some (.word64 0x4)) := by decide +kernel

theorem witness_ResetClearsTheBlock :
    (pushTurn .reset (pushTurn .syn (playingAt 1 5))).schedule = .reset :: [.syn] := by decide

/-- A turn that writes RESULT, one that writes FRAME, one that writes FCMD, one that appends to OUT. -/
theorem witness_OnlyTheNamedAgentsWriteEachRegister :
    seen State.resultValid (step (issuing 0x0000000000009F83)) = some true ∧
    seen State.frameValid (step (issuing 0x490755A76F400007)) = some true ∧
    seen State.fcmd (step (issuing 0x8)) = some 0x8 ∧
    seen (fun t => t.out.length) (step (playingAt 1 5)) = some 1 := by decide +kernel

/-- The last sample left, and none left. -/
theorem witness_ConsumeTakesTheNextSample :
    (pushTurn .consume { framed with out := [⟨1, 12⟩, ⟨2, 12⟩], consumed := 1 }).schedule = .consume :: [] ∧
    ({ framed with out := [⟨1, 12⟩, ⟨2, 12⟩], consumed := 1 } : State).out[1]? = some ⟨2, 12⟩ ∧
    (pushTurn .consume framed).schedule = .consume :: [] ∧ framed.out.length ≤ framed.consumed := by decide

/-- The ends of the range of rates, with the last phase of each. -/
theorem witness_QsinIsTheFloorOfTheRealSine :
    (1 ≤ 1 ∧ 1 < 2 ^ 32 ∧ 0 < 1) ∧ (1 ≤ 2 ^ 32 - 1 ∧ 2 ^ 32 - 1 < 2 ^ 32 ∧ 2 ^ 32 - 2 < 2 ^ 32 - 1) := by decide

theorem witness_QsinRangeAndAntisymmetry :
    (1 ≤ 3 ∧ 3 < 2 ^ 32 ∧ 0 < 3 ∧ 2 < 3) ∧ qsin 1 3 = 0 ∧ qsin 2 3 = -1 := by decide +kernel

theorem witness_SampleCodesFitTheirRegister : (1 : Word32) ≠ 0 ∧ (0xFFFFFFFF : Word32) ≠ 0 := by decide

/-- The last silent sample of a `'0'` at 12 Hz and the first of its tone; every sample of a terminator. -/
theorem witness_SecondsBeginWithTheirNotch :
    1 < (12 : Word32).toNat ∧ 1 < (1 * (12 : Word32).toNat + 9) / 10 ∧
    (1 * (12 : Word32).toNat + 9) / 10 ≤ 2 ∧ 11 < (10 * (12 : Word32).toNat + 9) / 10 := by decide

theorem witness_PhaseIsContinuous : 1 ≤ 1 ∧ 1 ≤ 44100 := by decide

theorem witness_RatesThatDivideTheCarrierAreSilent :
    (31000 : Word32).toNat ∣ 31000 ∧ (5 : Word32).toNat ∣ 31000 ∧ (wave .one 5).length = 5 := by decide +kernel

/-- CUR empty, CUR full and NEXT empty, both full; a rate of 0; a reserved bit and SYM = 3. -/
theorem witness_SynsQueuesOneSecond :
    framed.fault = false ∧ (1 : Word32).toNat ≠ 0 ∧ framed.cur = none ∧
    ((playingAt 0 0).cur ≠ none ∧ { playingAt 0 0 with next := none }.next = none) ∧
    ((playingAt 0 0).cur ≠ none ∧ (playingAt 0 0).next ≠ none) ∧
    ((2 : BitVec 2) ≠ 3 ∧ (0 : Word32).toNat = 0) ∧
    (field 0x0000000C00000044 0 4 = 4 ∧ field 0x0000000C00000044 6 26 ≠ 0) ∧
    (field 0x0000000C00000034 0 4 = 4 ∧ field 0x0000000C00000034 4 2 = 3) := by decide

/-- The last start position; one past it; no frame; a reserved bit. The slots are as for SYNS. -/
theorem witness_SynmQueuesTheMinute :
    (framed.fault = false ∧ (59 : BitVec 6).toNat ≤ 59 ∧ (1 : Word32).toNat ≠ 0 ∧ framed.frameValid = true ∧
      0 < 60 - (59 : BitVec 6).toNat) ∧
    (59 < (60 : BitVec 6).toNat ∧ (0 : Word32).toNat = 0) ∧
    (State.reset.fault = false ∧ State.reset.frameValid = false) ∧
    (field 0x0000000C00000405 0 4 = 5 ∧ field 0x0000000C00000405 10 22 ≠ 0) := by decide

theorem witness_AbortEmptiesBothSlots :
    (playingAt 1 5).fault = false ∧ exec .abort (playingAt 1 5) = .next framed ∧ synTurn framed = .next framed ∧
    field 0x16 0 4 = 6 ∧ field 0x16 4 60 ≠ 0 :=
  ⟨rfl, rfl, rfl, by decide, by decide⟩

/-- A command of each group, with a next state and no fault. -/
theorem witness_CommandsLeaveTheRestUnchanged :
    seen State.fault (exec (.syns 1 12) framed) = some false ∧ seen State.fault (exec (.synm 0 12) framed) = some false ∧
    seen State.fault (exec .abort (playingAt 1 5)) = some false ∧ seen State.fault (exec (.bcd 8 159) framed) = some false ∧
    seen State.fault (exec (.parity 48 0) framed) = some false ∧ seen State.fault (exec (.ldfr 0) framed) = some false ∧
    seen State.fault (exec (.encode march15) framed) = some false := by decide +kernel

/-- Within a second, at the end of a second, at the end of the slot; a scheduled turn of SYN and the empty
schedule. -/
theorem witness_SynStepEmitsOneSample :
    (pushTurn .syn (pushTurn (.read 3) (playingAt 0 10))).SynMoves 1 ∧ (playingAt 0 10).SynMoves 1 ∧
    (playingAt 0 10).cur = some ⟨tail, 0, 10⟩ ∧ tail.syms[0]? = some .zero ∧ 10 + 1 < tail.sr.toNat ∧
    (11 + 1 = tail.sr.toNat ∧ 1 + 1 < tail.syms.length ∧ tail.syms[1]? = some .one) ∧
    (2 + 1 = tail.syms.length ∧ tail.syms[2]? = some .term) := by unfold State.SynMoves; decide

/-- CUR at its last sample; a read and an accepted SYNS stand between SYN's two turns. -/
def swapping : State :=
  { playingAt 2 11 with schedule := [.syn, .read 3, .issue 0x0000000C00000014, .syn, .read 0] }

/-- With a record in NEXT, and with none; the host's two turns between the two of SYN, with no fault. -/
theorem witness_SwapLeavesNoGap :
    (swapping.Inv ∧ swapping.SynMoves 1 ∧ swapping.cur = some ⟨tail, 2, 11⟩ ∧
      2 + 1 = tail.syms.length ∧ 11 + 1 = tail.sr.toNat ∧ swapping.next = some second) ∧
    ((∀ turn ∈ swapping.schedule.tail.take 2, HostKeepsSlots turn) ∧
      seen (fun v => (v.fault, v.schedule, v.out.length)) (Machine.run 3 swapping) =
        some (false, [.syn, .read 0], 1)) ∧
    ({ playingAt 2 11 with next := none } : State).Inv ∧ ({ playingAt 2 11 with next := none } : State).SynMoves 1 := by
  refine ⟨⟨(playingAt_inv (ps := 2) (pi := 11) (by decide) (by decide)).congr rfl rfl rfl rfl rfl (Nat.le_refl 0),
    ?_, rfl, rfl, rfl, rfl⟩, ⟨?_, by decide +kernel⟩, ⟨nofun, nofun, ⟨fun _ => rfl, fun _ => rfl⟩, fun _ => rfl,
    by rintro _ ⟨⟩; exact ⟨tail_ok, by decide, by decide⟩, nofun, Nat.le_refl 0⟩, ?_⟩
  · unfold State.SynMoves; decide
  · unfold HostKeepsSlots; decide
  · unfold State.SynMoves; decide

theorem witness_IdleSynthesizerDoesNothing :
    framed.cur = none ∧ framed.schedule = [] ∧ (pushTurn .syn framed).schedule = .syn :: [] := by decide

/-- All 36 turns scheduled, and an empty schedule. -/
theorem witness_SlotsEmitTheirWaveform :
    tail.syms.length * tail.sr.toNat = 36 ∧
    ({ playingAt 0 0 with schedule := List.replicate 36 .syn ++ [.read 0] } : State).SynMoves 36 ∧
    (playingAt 0 0).SynMoves 36 ∧ (playingAt 0 0).cur = some { slot := tail, ps := 0, pi := 0 } ∧ tail.Ok ∧
    (59 : BitVec 6).toNat ≤ 59 :=
  ⟨rfl, by unfold State.SynMoves; decide, by unfold State.SynMoves; decide, rfl, tail_ok, by decide⟩

/-- SYN's step at the swap, and an accepted SYNS beside a playing slot. -/
theorem witness_NoSampleIsDroppedRepeatedOrInserted :
    (playingAt 2 11).Inv ∧ (playingAt 2 11).schedule = [] ∧
    seen State.fault (step (playingAt 2 11)) = some false ∧
    (issuing 0x0000000C00000014).Inv ∧ Turn.issue 0x0000000C00000014 ≠ .issue (encode .abort) ∧
    seen State.fault (step (issuing 0x0000000C00000014)) = some false := by
  refine ⟨playingAt_inv (by decide) (by decide), rfl, by decide +kernel, ?_, by decide, by decide +kernel⟩
  exact ⟨by decide, by decide, by decide, by decide, by rintro _ ⟨⟩, by rintro _ ⟨⟩, Nat.le_refl 0⟩

/-- Two states with equal slots: another frame, and SYN's turn scheduled in one of them only. -/
theorem witness_SamplesDependOnTheSlotsOnly :
    (playingAt 2 11).SynMoves 1 ∧ (pushTurn .syn (writeFrame 0 (playingAt 2 11))).SynMoves 1 ∧
    (playingAt 2 11).cur = (pushTurn .syn (writeFrame 0 (playingAt 2 11))).cur ∧
    (playingAt 2 11).next = (pushTurn .syn (writeFrame 0 (playingAt 2 11))).next ∧
    seen (fun t => t.out.length) (Machine.run 1 (playingAt 2 11)) = some 1 ∧
    seen (fun t => t.out.length) (Machine.run 1 (pushTurn .syn (writeFrame 0 (playingAt 2 11)))) = some 1 := by
  unfold State.SynMoves; decide +kernel

/-- A line with a command; one with an operand just too wide; one whose operands just fit; a raw word. -/
theorem witness_AssembledWordsDecode :
    (Asm.Line.syns .term 0xFFFFFFFF).command = some (.syns 2 0xFFFFFFFF) ∧
    (∃ p ∈ operandWidths (.bcd 16 0), 2 ^ p.1 ≤ p.2) ∧ (∃ p ∈ operandWidths (.encode ⟨0, 0, 1, 0, 1, 0, 2⟩), 2 ^ p.1 ≤ p.2) ∧
    (∀ p ∈ operandWidths (.encode ⟨63, 31, 31, 7, 15, 127, 1⟩), p.2 < 2 ^ p.1) ∧
    (∀ p ∈ operandWidths (.ldfr (2 ^ 59 - 1)), p.2 < 2 ^ p.1) ∧ 2 ^ 64 - 1 < 2 ^ 64 ∧ 2 ^ 4 ≤ 16 ∧ 15 < 2 ^ 4 ∧
    (Instr.syns 2 0xFFFFFFFF).wellFormed = true := by decide

end Sys2Proof.Tests
end

section
/-! SUPPORT. The invariant through every operation, up to a step (10_state.md rules R22, R25, R26, R29). -/

namespace Sys2Proof.Machine

theorem State.reset_inv : State.reset.Inv where
  nextBehindCur := nofun
  faultedIsQuiet := nofun
  faultHasCause := ⟨fun _ => rfl, fun _ => rfl⟩
  fcmdUntouched := fun _ => rfl
  curOk := nofun
  nextOk := nofun
  consumedEmitted := Nat.le_refl 0

/-- A block that plays has no fault. -/
theorem State.Inv.unfaulted {s : State} (h : s.Inv) {c : Playing} (hc : s.cur = some c) : s.fault = false :=
  Bool.eq_false_iff.2 fun hf => (h.faultedIsQuiet hf).1 (by simp [State.curBusy, hc])

/-! ### Slots -/

/-- A good position in CUR. -/
theorem State.Inv.set_cur {s : State} (h : s.Inv) (hf : s.fault = false) {c : Playing} (hc : c.Ok) :
    State.Inv { s with cur := some c } where
  nextBehindCur := fun _ => rfl
  faultedIsQuiet := by simp [hf]
  faultHasCause := h.faultHasCause
  fcmdUntouched := h.fcmdUntouched
  curOk := by rintro _ ⟨⟩; exact hc
  nextOk := h.nextOk
  consumedEmitted := h.consumedEmitted

/-- A good record in NEXT, behind a CUR that plays. -/
theorem State.Inv.set_next {s : State} (h : s.Inv) (hf : s.fault = false) (hc : s.cur ≠ none) {e : Slot}
    (he : e.Ok) : State.Inv { s with next := some e } where
  nextBehindCur := fun _ => Option.isSome_iff_ne_none.2 hc
  faultedIsQuiet := by simp [hf]
  faultHasCause := h.faultHasCause
  fcmdUntouched := h.fcmdUntouched
  curOk := h.curOk
  nextOk := by rintro _ ⟨⟩; exact he
  consumedEmitted := h.consumedEmitted

theorem State.Inv.emptySlots {s : State} (h : s.Inv) : (emptySlots s).Inv where
  nextBehindCur := nofun
  faultedIsQuiet := fun _ => ⟨nofun, nofun⟩
  faultHasCause := h.faultHasCause
  fcmdUntouched := h.fcmdUntouched
  curOk := nofun
  nextOk := nofun
  consumedEmitted := h.consumedEmitted

/-- The swap: NEXT's record is as good in CUR, from its start. -/
theorem State.Inv.endOfSlot {s : State} (h : s.Inv) : (endOfSlot s).Inv := by
  cases hn : s.next with
  | none => exact h.emptySlots.congr rfl rfl rfl (by simp [hn]) rfl h.consumedEmitted
  | some e =>
    have hf : s.fault = false := Bool.eq_false_iff.2 fun hf =>
      (h.faultedIsQuiet hf).2 (by simp [State.nextFull, hn])
    have he : e.start.Ok := Slot.start_ok (h.nextOk e hn)
    exact (h.emptySlots.set_cur hf he).congr rfl rfl rfl (by simp [hn]) rfl h.consumedEmitted

/-! ### The SYN step -/

theorem State.Inv.emit {s : State} (h : s.Inv) (x : Sample) : (emit x s).Inv :=
  h.congr rfl rfl rfl rfl rfl (by simpa using Nat.le_succ_of_le h.consumedEmitted)

theorem State.Inv.tick {s : State} (h : s.Inv) : (tick s).Inv :=
  h.congr rfl rfl rfl rfl rfl h.consumedEmitted

theorem State.Inv.popTurn {s : State} (h : s.Inv) (rest : List Turn) : (popTurn rest s).Inv :=
  h.congr rfl rfl rfl rfl rfl h.consumedEmitted

/-- The next position of a good CUR is good. -/
theorem State.Inv.advance {s : State} (h : s.Inv) {c : Playing} (hc : s.cur = some c) :
    (advance c s).Inv := by
  have hf := h.unfaulted hc
  obtain ⟨hslot, hps, hpi⟩ := h.curOk c hc
  have ha := advance_cases c s
  generalize Machine.advance c s = t at ha
  cases ha with
  | sample hne => exact h.set_cur hf ⟨hslot, hps, by dsimp only; omega⟩
  | second _ hne => exact h.set_cur hf ⟨hslot, by dsimp only; omega, hslot.2.2⟩
  | swap => exact h.endOfSlot

theorem SynEffect.inv {s t : State} (e : SynEffect s t) (h : s.Inv) : t.Inv := by
  cases e with
  | idle => exact h
  | sample hc => exact ((h.emit _).advance hc).tick

/-! ### Commands, the host's turns, steps -/

theorem Effect.inv {s t : State} {i : Instr} (e : Effect s i t) (hf : s.fault = false) (h : s.Inv) :
    t.Inv := by
  cases e with
  | faults c hc => exact raiseFault_inv h.consumedEmitted hc _
  | nothing => exact h
  | frame f => exact h.congr rfl rfl rfl rfl rfl h.consumedEmitted
  | result v => exact h.congr rfl rfl rfl rfl rfl h.consumedEmitted
  | abort => exact h.emptySlots
  | toCur e hq _ => exact h.set_cur hf (Slot.start_ok hq.ok)
  | toNext e hq hc _ => exact h.set_next hf hc hq.ok

theorem State.Inv.hostConsume {s : State} (h : s.Inv) : (hostConsume s).Inv := by
  rcases hostConsume_cases s with ⟨-, e⟩ | ⟨x, hx, e⟩ <;> rw [e]
  · exact h
  · obtain ⟨hlt, -⟩ := List.getElem?_eq_some_iff.1 hx
    exact h.congr rfl rfl rfl rfl rfl hlt

theorem hostReset_inv (s : State) : (hostReset s).Inv :=
  State.reset_inv.congr rfl rfl rfl rfl rfl (Nat.le_refl 0)

theorem State.Inv.step {s t : State} (h : s.Inv) (hst : step s = .next t) : t.Inv := by
  cases step_effect hst with
  | syn _ e => exact e.inv h
  | synTurn _ e => exact e.inv (h.popTurn _)
  | discarded => exact (h.popTurn _).tick
  | illegal => exact raiseFault_inv (h.popTurn _).tick.consumedEmitted (by decide) _
  | command _ hf _ e => exact e.inv hf (h.popTurn _).tick
  | read => exact h.congr rfl rfl rfl rfl rfl h.consumedEmitted
  | reset => exact hostReset_inv _
  | consume => exact (h.popTurn _).tick.hostConsume

end Sys2Proof.Machine

namespace Sys2Proof.Claims
open Sys2Proof.Machine

/-- Settles O7: every flag is clear, both slots are empty, nothing is emitted. -/
theorem resetStateObeysTheInvariant : Obligations.ResetStateObeysTheInvariant := State.reset_inv

/-- Settles O8, by the inversion of `step`: each operation keeps the invariant. -/
theorem everyStepKeepsTheInvariant : Obligations.EveryStepKeepsTheInvariant :=
  fun _ _ h hst => h.step hst

end Sys2Proof.Claims
end

section
/-! SUPPORT. Which step writes which register (10_state.md rules R23, R24, R25, R29; 70_reset_and_hazards.md
rule R260). -/

namespace Sys2Proof.Machine

/-- The registers a step writes one at a time, with the configuration. -/
structure Registers where
  cfg : Config
  result : Word32
  resultValid : Bool
  frame : FrameData
  frameValid : Bool
  fcmd : Word64
  out : List Sample

def State.registers (s : State) : Registers where
  cfg := s.cfg
  result := s.result
  resultValid := s.resultValid
  frame := s.frame
  frameValid := s.frameValid
  fcmd := s.fcmd
  out := s.out

/-- What a step writes of the registers, and which step that is. -/
inductive Writes (s t : State) : Prop where
  | nothing (h : t.registers = s.registers)
  | result {w : Word64} {rest : List Turn} {i : Instr} {v : Word32} (hs : s.schedule = .issue w :: rest)
      (hd : decode w = some i) (hi : (∃ n x, i = .bcd n x) ∨ ∃ len d, i = .parity len d)
      (h : t.registers = { s.registers with result := v, resultValid := true })
  | frame {w : Word64} {rest : List Turn} {i : Instr} {f : FrameData} (hs : s.schedule = .issue w :: rest)
      (hd : decode w = some i) (hi : (∃ c, i = .encode c) ∨ ∃ fr, i = .ldfr fr)
      (h : t.registers = { s.registers with frame := f, frameValid := true })
  | fcmd {w : Word64} (hf : s.fault = false) (hf' : t.fault = true)
      (h : t.registers = { s.registers with fcmd := w })
  | out {x : Sample} (hs : s.schedule = [] ∨ ∃ rest, s.schedule = .syn :: rest)
      (h : t.registers = { s.registers with out := s.out ++ [x] })
  | reset {rest : List Turn} (hs : s.schedule = .reset :: rest) (hc : t.cfg = s.cfg)

theorem SynEffect.registers {s t : State} (e : SynEffect s t) :
    t.registers = s.registers ∨ ∃ x, t.registers = { s.registers with out := s.out ++ [x] } := by
  cases e with
  | idle => exact .inl rfl
  | sample => rw [advance_frame]; exact .inr ⟨_, rfl⟩

theorem hostConsume_registers (s : State) : (hostConsume s).registers = s.registers := by
  rcases hostConsume_cases s with ⟨-, e⟩ | ⟨_, -, e⟩ <;> rw [e]; rfl

/-- A turn of SYN writes OUT or nothing. -/
theorem SynEffect.writes {s u t : State} (e : SynEffect u t) (hu : u.registers = s.registers)
    (hs : s.schedule = [] ∨ ∃ rest, s.schedule = .syn :: rest) : Writes s t := by
  have ho : u.out = s.out := congrArg Registers.out hu
  rcases e.registers with h | ⟨x, h⟩
  · exact .nothing (h.trans hu)
  · exact .out hs (by rw [h, hu, ho])

theorem step_writes {s t : State} (h : step s = .next t) : Writes s t := by
  cases step_effect h with
  | syn hs e => exact e.writes rfl (.inl hs)
  | synTurn hs e => exact e.writes rfl (.inr ⟨_, hs⟩)
  | discarded => exact .nothing rfl
  | illegal hs hf hd => exact .fcmd hf rfl rfl
  | command hs hf hd e =>
    cases e with
    | faults c _ => exact .fcmd hf rfl rfl
    | nothing => exact .nothing rfl
    | frame f hi => exact .frame hs hd (hi.imp (fun ⟨c, hc, _⟩ => ⟨c, hc⟩) fun hl => ⟨f, hl⟩) rfl
    | result v hi => exact .result hs hd hi rfl
    | abort => exact .nothing rfl
    | toCur => exact .nothing rfl
    | toNext => exact .nothing rfl
  | read => exact .nothing rfl
  | reset hs => exact .reset hs rfl
  | consume => exact .nothing (hostConsume_registers _)

end Sys2Proof.Machine

namespace Sys2Proof.Claims
open Sys2Proof.Machine

/-- Settles O30: each step writes at most the one register its turn names, and reset keeps the configuration. -/
theorem onlyTheNamedAgentsWriteEachRegister : Obligations.OnlyTheNamedAgentsWriteEachRegister := by
  intro s t hst
  cases step_writes hst with
  | nothing h => simp_all [State.registers]
  | result hs hd hi h =>
    simp only [State.registers, Registers.mk.injEq] at h
    obtain ⟨hcfg, -, -, hframe⟩ := h
    exact ⟨hcfg, fun _ => ⟨fun _ => ⟨_, _, hs, by simpa [hd] using hi⟩, by simp [hframe]⟩⟩
  | frame hs hd hi h =>
    simp only [State.registers, Registers.mk.injEq] at h
    obtain ⟨hcfg, hresult, hvalid, -, -, hfcmd, hout⟩ := h
    exact ⟨hcfg, fun _ => ⟨by simp [hresult, hvalid], fun _ => ⟨_, _, hs, by simpa [hd] using hi⟩,
      by simp [hfcmd], by simp [hout]⟩⟩
  | fcmd hf hf' h => simp_all [State.registers]
  | out hs h => simp_all [State.registers]
  | reset hs hc => exact ⟨hc, fun hr => absurd hs (hr _)⟩

end Sys2Proof.Claims
end

section
/-! SUPPORT. STATUS, POS and the host's place in OUT (10_state.md rules R22, R27, R29). -/

namespace Sys2Proof.Machine

/-- BASE + PS of a good CUR is a frame position, so POS's six bits hold it. -/
theorem Playing.Ok.position_le {c : Playing} (h : c.Ok) : c.slot.base.toNat + c.ps ≤ 59 := by
  obtain ⟨⟨-, hbase, -⟩, hps, -⟩ := h
  omega

theorem pos_playing {s : State} {c : Playing} (hc : s.cur = some c) :
    s.pos = 0#26 ++ (c.slot.base + BitVec.ofNat 6 c.ps) ++ BitVec.ofNat 32 c.pi := by
  simp [State.pos, hc]

theorem hostConsume_sample {s : State} {x : Sample} (hx : s.out[s.consumed]? = some x) :
    hostConsume s = { s with consumed := s.consumed + 1, reply := some (.sample x) } := by
  simp [hostConsume, hx]

theorem hostConsume_none_left {s : State} (h : s.out.length ≤ s.consumed) : hostConsume s = s := by
  simp [hostConsume, h]

end Sys2Proof.Machine

namespace Sys2Proof.Claims
open Sys2Proof.Machine

/-- Settles O25: each field is one part of STATUS's concatenation. -/
theorem statusShowsTheFlags : Obligations.StatusShowsTheFlags := by
  refine ⟨fun s => ?_, rfl, rfl, rfl, rfl, rfl, rfl⟩
  unfold State.status
  simp only [BitVec.getLsbD_append]
  refine ⟨by simp, ?_, by simp [State.curBusy], by simp [State.nextFull], by simp, by simp, ?_⟩
  · rw [extract_append_above _ _ (by decide), extract_append_within _ _ (by decide), extract_all]
  · iterate 6 rw [extract_append_above _ _ (by decide)]
    exact extract_all _

/-- Settles O26: the position is within its field, so each part of POS's concatenation is exact. -/
theorem posShowsThePosition : Obligations.PosShowsThePosition := by
  refine ⟨fun s hc => by simp [State.pos, hc], fun s c h hc => ?_⟩
  have hok := h.curOk c hc
  have hle := hok.position_le
  rw [pos_playing hc]
  refine ⟨?_, ?_, hle, ?_⟩
  · rw [extract_append_within _ _ (by decide), extract_all, BitVec.toNat_ofNat]
    exact Nat.mod_eq_of_lt (hok.2.2.trans c.slot.sr.isLt)
  · rw [extract_append_above _ _ (by decide), extract_append_within _ _ (by decide), extract_all,
      BitVec.toNat_add, BitVec.toNat_ofNat]
    omega
  · rw [extract_append_above _ _ (by decide), extract_append_above _ _ (by decide)]
    exact extract_all _

/-- Settles O31: the turn is `hostConsume` of the state after the turn has been taken. -/
theorem consumeTakesTheNextSample : Obligations.ConsumeTakesTheNextSample := by
  refine ⟨fun s x rest hs hx => ?_, fun s rest hs hle => ?_⟩ <;> rw [step_turn hs]
  · exact congrArg Host.Outcome.next (hostConsume_sample (s := taken rest s) hx)
  · exact congrArg Host.Outcome.next (hostConsume_none_left (s := taken rest s) hle)

end Sys2Proof.Claims
end

section
/-! SUPPORT. The three stages of `qsin` together, and the range of a sample code (42_synthesizer.md rules R160,
R165). -/

namespace Sys2Proof.Machine

open Real

/-- QSIN is the floor of its real value: the exact angles, one floor in the enclosure, or two and the exact
comparison. -/
theorem qsin_eq_floor {m sr : Nat} (hm : m < sr) (hsr : sr < 2 ^ 32) : qsin m sr = ⌊realTone m sr⌋ := by
  have hpos : 0 < sr := by omega
  unfold qsin
  split
  · rename_i e he
    rw [exactTwiceSine_spec hpos he, floor_quotient _ (by decide)]
  · obtain ⟨hlo, hhi, hwidth⟩ := qsinBounds_spec hm hsr
    have hiff := (sineAtLeast_iff (q := (qsinBounds m sr).2) hm).trans Int.le_floor.symm
    dsimp only
    split
    · omega
    · split
      · have := hiff.1 ‹_›
        omega
      · have := mt hiff.2 ‹_›
        omega

theorem abs_realTone_le (m sr : Nat) : |realTone m sr| ≤ sr / 3 := by
  rw [realTone, mul_div_assoc, abs_mul, abs_of_nonneg (by positivity : (0 : ℝ) ≤ sr / 3)]
  exact mul_le_of_le_one_left (by positivity) (abs_sin_le_one _)

/-- Rule R165 (a): QSIN lies between floor(-SR/3) and floor(SR/3). -/
theorem qsin_range {m sr : Nat} (hm : m < sr) (hsr : sr < 2 ^ 32) :
    -(sr : Int) ≤ 3 * qsin m sr + 2 ∧ 3 * qsin m sr ≤ sr := by
  obtain ⟨hlo, hhi⟩ := abs_le.1 (abs_realTone_le m sr)
  rw [qsin_eq_floor hm hsr]
  have h1 := Int.floor_le (realTone m sr)
  have h2 := Int.lt_floor_add_one (realTone m sr)
  generalize ⌊realTone m sr⌋ = q at *
  have h3 : -(sr : ℝ) < 3 * q + 3 := by linarith
  have h4 : (3 : ℝ) * q ≤ sr := by linarith
  have h3 : -(sr : Int) < 3 * q + 3 := by exact_mod_cast h3
  exact ⟨by omega, by exact_mod_cast h4⟩

/-- A sample code fits 32 bits. -/
theorem sampleCode_fits (sym : Symbol) (i : Nat) {sr : Nat} (h0 : 0 < sr) (hsr : sr < 2 ^ 32) :
    -2 ^ 31 ≤ sampleCode sym i sr ∧ sampleCode sym i sr < 2 ^ 31 := by
  unfold sampleCode
  split
  · decide
  · have := qsin_range (Nat.mod_lt (Config.carrierHz * i) h0) hsr
    unfold phase
    omega

end Sys2Proof.Machine

namespace Sys2Proof.Claims
open Sys2Proof.Machine

/-- Settles O34: a code is at most a third of the rate, so it fits. -/
theorem sampleCodesFitTheirRegister : Obligations.SampleCodesFitTheirRegister := by
  intro sym i sr h
  have h0 : 0 < sr.toNat := Nat.pos_of_ne_zero fun h0 => h (BitVec.eq_of_toNat_eq h0)
  obtain ⟨hlo, hhi⟩ := sampleCode_fits sym i h0 sr.isLt
  exact ⟨BitVec.toInt_ofInt_eq_self (by decide) hlo hhi, rfl⟩

end Sys2Proof.Claims
end

section
/-! SUPPORT. What a command leaves unchanged, register group by register group (20_memory.md rule R57,
40_bcd_encoder.md rule R114, 42_synthesizer.md rule R173, 60_exceptions.md rule R235). -/

namespace Sys2Proof.Machine

/-- A command is discarded, or has its effect. -/
theorem exec_same_or_effect {i : Instr} {s t : State} (h : exec i s = .next t) : t = s ∨ Effect s i t := by
  cases hf : s.fault with
  | true => rw [exec_discarded i hf] at h; cases h; exact .inl rfl
  | false => exact .inr (exec_effect hf h)

theorem Queues.syns_or_synm {s : State} {i : Instr} {e : Slot} (h : Queues s i e) :
    (∃ sym sr, i = .syns sym sr) ∨ ∃ start sr, i = .synm start sr := by
  cases h with
  | syns => exact .inl ⟨_, _, rfl⟩
  | synm => exact .inr ⟨_, _, rfl⟩

/-- A command changes neither OUT nor the host's side nor the configuration. -/
theorem Effect.hostSide_eq {s t : State} {i : Instr} (e : Effect s i t) :
    t.out = s.out ∧ t.consumed = s.consumed ∧ t.reply = s.reply ∧ t.schedule = s.schedule ∧
      t.cfg = s.cfg ∧ t.epoch = s.epoch ∧ t.reads = s.reads := by
  cases e <;> exact ⟨rfl, rfl, rfl, rfl, rfl, rfl, rfl⟩

/-- Only fault entry writes CAUSE and FCMD. -/
theorem Effect.cause_fcmd_eq {s t : State} {i : Instr} (e : Effect s i t) (ht : t.fault = false) :
    t.cause = s.cause ∧ t.fcmd = s.fcmd := by
  cases e with
  | faults => simp at ht
  | _ => exact ⟨rfl, rfl⟩

/-- Without a fault only SYNS, SYNM and ABORT write a slot. -/
theorem Effect.slots_eq {s t : State} {i : Instr} (e : Effect s i t) (ht : t.fault = false)
    (hsyns : ∀ sym sr, i ≠ .syns sym sr) (hsynm : ∀ start sr, i ≠ .synm start sr) (habort : i ≠ .abort) :
    t.cur = s.cur ∧ t.next = s.next := by
  have hq (r : Slot) : ¬ Queues s i r := fun h => by
    rcases h.syns_or_synm with ⟨sym, sr, hi⟩ | ⟨start, sr, hi⟩
    · exact hsyns sym sr hi
    · exact hsynm start sr hi
  cases e with
  | faults => simp at ht
  | abort hi => exact absurd hi habort
  | toCur r h => exact absurd h (hq r)
  | toNext r h => exact absurd h (hq r)
  | _ => exact ⟨rfl, rfl⟩

/-- Only ENCODE and LDFR write FRAME. -/
theorem Effect.frame_eq {s t : State} {i : Instr} (e : Effect s i t)
    (hencode : ∀ c, i ≠ .encode c) (hldfr : ∀ fr, i ≠ .ldfr fr) :
    t.frame = s.frame ∧ t.frameValid = s.frameValid := by
  cases e with
  | frame f hi =>
    rcases hi with ⟨c, hi, -⟩ | hi
    · exact absurd hi (hencode c)
    · exact absurd hi (hldfr f)
  | _ => exact ⟨rfl, rfl⟩

/-- Only BCD and PARITY write RESULT. -/
theorem Effect.result_eq {s t : State} {i : Instr} (e : Effect s i t)
    (hbcd : ∀ n v, i ≠ .bcd n v) (hparity : ∀ len d, i ≠ .parity len d) :
    t.result = s.result ∧ t.resultValid = s.resultValid := by
  cases e with
  | result v hi =>
    rcases hi with ⟨n, x, hi⟩ | ⟨len, d, hi⟩
    · exact absurd hi (hbcd n x)
    · exact absurd hi (hparity len d)
  | _ => exact ⟨rfl, rfl⟩

/-! ### Reads -/

theorem step_read {s : State} {n : Nat} {rest : List Turn} (hs : s.schedule = .read n :: rest) :
    step s = .next (hostRead n (popTurn rest s)) := step_turn hs

theorem readValue_popTurn (n : Nat) (rest : List Turn) (s : State) :
    readValue n (popTurn rest s) = readValue n s := rfl

/-- A read changes nothing that an implemented register shows, nor the instant. -/
theorem readValue_hostRead {n : Nat} (hn : n ≤ 4) (m : Nat) (s : State) :
    readValue n (hostRead m s) = readValue n s := by
  interval_cases n <;> rfl

/-! ### The bus -/

theorem busBytes_length (order : ByteOrder) (w : Word64) : (busBytes order w).length = 8 := by
  cases order <;> simp [busBytes]

/-- Bit k of the word is bit k mod 8 of byte k / 8. -/
theorem getLsbD_wordOfLowFirst (bytes : List (BitVec 8)) {k : Nat} (hk : k < 64) :
    (wordOfLowFirst bytes).getLsbD k = (bytes.getD (k / 8) 0).getLsbD (k % 8) := by
  induction bytes generalizing k with
  | nil => simp [wordOfLowFirst]
  | cons b bs ih =>
    simp only [wordOfLowFirst, BitVec.getLsbD_or, BitVec.getLsbD_shiftLeft, BitVec.getLsbD_setWidth]
    by_cases h8 : k < 8
    · simp [h8, hk, Nat.div_eq_of_lt h8, Nat.mod_eq_of_lt h8]
    · have hbyte : k / 8 = (k - 8) / 8 + 1 := by omega
      have hbit : k % 8 = (k - 8) % 8 := by omega
      have hout : b.getLsbD k = false := BitVec.getLsbD_of_ge b k (by omega)
      rw [ih (by omega), hbyte, hbit]
      simp [h8, hk, hout]

/-- The bytes of a word, the byte of bits 7:0 first, make the word. -/
theorem wordOfLowFirst_busBytes (w : Word64) : wordOfLowFirst (busBytes .lowByteFirst w) = w := by
  apply BitVec.eq_of_getLsbD_eq
  intro k hk
  have hbyte : k / 8 < 8 := by omega
  have hbit : k % 8 < 8 := by omega
  rw [getLsbD_wordOfLowFirst _ hk]
  simp [busBytes, hbyte, hbit, Nat.div_add_mod]

theorem busBytes_high_reverse (w : Word64) :
    (busBytes .highByteFirst w).reverse = busBytes .lowByteFirst w := List.reverse_reverse _

end Sys2Proof.Machine

namespace Sys2Proof.Claims
open Sys2Proof.Machine

/-- Settles O41: a discarded command changes nothing, and an effect keeps each group of registers that is not
its command's own. -/
theorem commandsLeaveTheRestUnchanged : Obligations.CommandsLeaveTheRestUnchanged := by
  intro i s t h
  rcases exec_same_or_effect h with rfl | e
  · simp
  obtain ⟨hout, hconsumed, hreply, hschedule, hcfg, hepoch, hreads⟩ := e.hostSide_eq
  refine ⟨hout, hconsumed, hreply, hschedule, hcfg, hepoch, hreads, fun ht => ?_, fun hi => ?_, fun hi => ?_,
    fun hi => ?_⟩
  · obtain ⟨hcause, hfcmd⟩ := e.cause_fcmd_eq ht
    exact ⟨hcause, hfcmd, e.slots_eq ht⟩
  · have hframe : t.frame = s.frame ∧ t.frameValid = s.frameValid :=
      e.frame_eq (by rintro c rfl; simp at hi) (by rintro fr rfl; simp at hi)
    have hresult : t.result = s.result ∧ t.resultValid = s.resultValid :=
      e.result_eq (by rintro n v rfl; simp at hi) (by rintro len d rfl; simp at hi)
    exact ⟨hframe.1, hframe.2, hresult⟩
  · exact e.frame_eq (by rintro c rfl; simp at hi) (by rintro fr rfl; simp at hi)
  · exact e.result_eq (by rintro n v rfl; simp at hi) (by rintro len d rfl; simp at hi)

/-- Settles O28: the second read answers from the state the first one left, which shows the same value. -/
theorem repeatedReadsAgree : Obligations.RepeatedReadsAgree := by
  intro s t u n rest hn hs hst htu
  obtain rfl : hostRead n (popTurn (.read n :: rest) s) = t :=
    Host.Outcome.next.inj ((step_read hs).symm.trans hst)
  obtain rfl : hostRead n (popTurn rest (hostRead n (popTurn (.read n :: rest) s))) = u :=
    Host.Outcome.next.inj ((step_read rfl).symm.trans htu)
  simp [readValue_popTurn, readValue_hostRead hn]

/-- Settles O49: the high byte first order is the low byte first order reversed, and is reversed back. -/
theorem busDeliversTheWordWhole : Obligations.BusDeliversTheWordWhole := by
  intro order w
  refine ⟨?_, busBytes_length order w⟩
  unfold wordOfBus
  rw [if_pos (busBytes_length order w)]
  cases order with
  | lowByteFirst => exact congrArg some (wordOfLowFirst_busBytes w)
  | highByteFirst => exact congrArg some (by rw [busBytes_high_reverse, wordOfLowFirst_busBytes])

end Sys2Proof.Claims
end

section
/-! SUPPORT. The word formats of 30_encoding.md (rules R72 to R78) field by field, and what decoding, encoding
and the rows of the opcode table make of them. -/

namespace Sys2Proof

/-- The fields of `w` are those the format of `i` gives it: OP, the reserved bits at 0, the operands
(rules R72 to R78). -/
def HasFormat (w : Word64) : Instr → Prop
  | .nop => field w 0 4 = 0 ∧ field w 4 60 = 0
  | .encode t => field w 0 4 = 1 ∧ field w 35 29 = 0 ∧ t = decodeTime w
  | .parity len d => field w 0 4 = 2 ∧ field w 10 6 = 0 ∧ len = field w 4 6 ∧ d = field w 16 48
  | .bcd n v => field w 0 4 = 3 ∧ field w 16 48 = 0 ∧ n = field w 4 4 ∧ v = field w 8 8
  | .syns sym sr => field w 0 4 = 4 ∧ field w 6 26 = 0 ∧ sym = field w 4 2 ∧ sr = field w 32 32
  | .synm start sr => field w 0 4 = 5 ∧ field w 10 22 = 0 ∧ start = field w 4 6 ∧ sr = field w 32 32
  | .abort => field w 0 4 = 6 ∧ field w 4 60 = 0
  | .ldfr fr => field w 0 4 = 7 ∧ field w 63 1 = 0 ∧ fr = field w 4 59

/-! ### The word of a command -/

/-- A word is a concatenation iff its low `b` bits are the right part and the bits above are the left part. -/
theorem eq_append_iff {a : Nat} (b : Nat) (w : BitVec (a + b)) (x : BitVec a) (y : BitVec b) :
    w = x ++ y ↔ w.extractLsb' 0 b = y ∧ w.extractLsb' b a = x := by
  constructor
  · rintro rfl
    rw [extract_append_within _ _ (by omega), extract_append_above _ _ (by omega), Nat.sub_self]
    exact ⟨extract_all y, extract_all x⟩
  · rintro ⟨rfl, rfl⟩
    rw [append_fields w (by omega)]
    exact (extract_all w).symm

/-- The same for a field of a word, which splits into two neighbouring fields. -/
theorem extract_eq_append_iff {n lo a : Nat} (b : Nat) (w : BitVec n) (x : BitVec a) (y : BitVec b) :
    w.extractLsb' lo (a + b) = x ++ y ↔ w.extractLsb' lo b = y ∧ w.extractLsb' (lo + b) a = x := by
  rw [eq_append_iff, extract_extract w (by omega), extract_extract w (by omega), Nat.add_zero]

/-- The word of a command is the one word with its format: each case cuts the word into the fields of the
format, from bit 0 up. -/
theorem eq_encode_iff (w : Word64) (i : Instr) : w = encode i ↔ HasFormat w i := by
  cases i <;> simp only [encode, HasFormat, field]
  case nop => exact eq_append_iff 4 w _ _
  case encode t =>
    cases t
    simp only [decodeTime, field, CivilTime.mk.injEq]
    rw [eq_append_iff 4, extract_eq_append_iff 6, extract_eq_append_iff 5, extract_eq_append_iff 5,
      extract_eq_append_iff 3, extract_eq_append_iff 4, extract_eq_append_iff 7, extract_eq_append_iff 1]
    tauto
  case parity => rw [eq_append_iff 4, extract_eq_append_iff 6, extract_eq_append_iff 6]; tauto
  case bcd => rw [eq_append_iff 4, extract_eq_append_iff 4, extract_eq_append_iff 8]; tauto
  case syns => rw [eq_append_iff 4, extract_eq_append_iff 2, extract_eq_append_iff 26]; tauto
  case synm => rw [eq_append_iff 4, extract_eq_append_iff 6, extract_eq_append_iff 22]; tauto
  case abort => exact eq_append_iff 4 w _ _
  case ldfr => rw [eq_append_iff 4, extract_eq_append_iff 59]; tauto

/-! ### The decoder -/

/-- Decoding reads the format, and refuses the ill-formed term only (rule R81). -/
theorem decode_eq_some_iff (w : Word64) (i : Instr) :
    decode w = some i ↔ i.wellFormed = true ∧ HasFormat w i := by
  constructor
  · intro h
    have hfields := decode_eq_some h
    cases i with
    | syns sym sr =>
      obtain ⟨hop, hres, hsym, hoperands⟩ := hfields
      exact ⟨decide_eq_true hsym, hop, hres, hoperands⟩
    | _ => exact ⟨rfl, hfields⟩
  · rintro ⟨hwf, hfields⟩
    cases i with
    | nop | abort =>
      obtain ⟨hop, hres⟩ := hfields
      simp [decode, hop, hres]
    | encode t | ldfr fr =>
      obtain ⟨hop, hres, rfl⟩ := hfields
      simp [decode, hop, hres]
    | parity | bcd | synm =>
      obtain ⟨hop, hres, rfl, rfl⟩ := hfields
      simp [decode, hop, hres]
    | syns sym sr =>
      obtain ⟨hop, hres, rfl, rfl⟩ := hfields
      simpa [decode, hop, hres] using of_decide_eq_true hwf

/-- An OP that is not reserved is one of the eight of rule R71. -/
theorem op_cases : ∀ op : BitVec 4, ¬ 8 ≤ op.toNat →
    op = 0 ∨ op = 1 ∨ op = 2 ∨ op = 3 ∨ op = 4 ∨ op = 5 ∨ op = 6 ∨ op = 7 := by decide

theorem decode_reserved_op {w : Word64} (h : 8 ≤ (field w 0 4).toNat) : decode w = none := by
  unfold decode
  split
  case h_9 => rfl
  all_goals omega

/-- The decoder refuses what rule R80 lists, OP by OP. -/
theorem decode_eq_none_iff (w : Word64) : decode w = none ↔ Claims.Illegal w := by
  unfold Claims.Illegal
  by_cases hres : 8 ≤ (field w 0 4).toNat
  · simp [decode_reserved_op hres, hres]
  · rcases op_cases _ hres with h | h | h | h | h | h | h | h <;> simp [decode, h, imp_iff_not_or]

/-! ### The opcode table -/

/-- The OP of a row (rule R71). -/
def OpcodeRow.op (r : OpcodeRow) : BitVec 4 := field r.pattern 0 4

/-- Where the reserved bits of a row's format begin, and how many they are (rules R72 to R78). -/
def OpcodeRow.reserved (r : OpcodeRow) : Nat × Nat :=
  match r.op.toNat with
  | 0x1 => (35, 29)
  | 0x2 => (10, 6)
  | 0x3 => (16, 48)
  | 0x4 => (6, 26)
  | 0x5 => (10, 22)
  | 0x7 => (63, 1)
  | _ => (4, 60)

/-- A word masked to OP and one field above it is an OP iff it has that OP and the field is 0. -/
theorem and_mask_eq_iff (w : Word64) {m : Word64} {op : BitVec 4} {lo n : Nat} (hlo : 4 ≤ lo)
    (hn : lo + n ≤ 64) (hm : ∀ k < 64, m.getLsbD k = decide (k < 4 ∨ lo ≤ k ∧ k < lo + n)) :
    w &&& m = op.setWidth 64 ↔ field w 0 4 = op ∧ field w lo n = 0 := by
  have hop (k : Nat) (hk : 4 ≤ k) : op.getLsbD k = false := BitVec.getLsbD_of_ge op k hk
  constructor
  · intro h
    have hbit (k : Nat) (hk : k < 64) : (w.getLsbD k && m.getLsbD k) = op.getLsbD k := by
      simpa [hk] using congrArg (BitVec.getLsbD · k) h
    constructor <;> apply BitVec.eq_of_getLsbD_eq <;> intro k hk
    · simpa [field, hk, hm k (by omega)] using hbit k (by omega)
    · simpa [field, hk, hm (lo + k) (by omega), hop (lo + k) (by omega)] using hbit (lo + k) (by omega)
  · rintro ⟨hw, hres⟩
    apply BitVec.eq_of_getLsbD_eq
    intro k hk
    simp only [BitVec.getLsbD_and, BitVec.getLsbD_setWidth, hm k hk, hk]
    by_cases h4 : k < 4
    · simpa [field, h4] using congrArg (BitVec.getLsbD · k) hw
    by_cases hin : lo ≤ k ∧ k < lo + n
    · simpa [field, hin, hop k (by omega), show k - lo < n by omega] using
        congrArg (BitVec.getLsbD · (k - lo)) hres
    · simp [h4, hin, hop k (by omega)]

/-- A row's pattern is its OP, and its mask covers OP and the reserved bits. -/
theorem opcodeTable_masks : ∀ r ∈ opcodeTable, r.pattern = r.op.setWidth 64 ∧
    4 ≤ r.reserved.1 ∧ r.reserved.1 + r.reserved.2 ≤ 64 ∧
    ∀ k < 64, r.mask.getLsbD k = decide (k < 4 ∨ r.reserved.1 ≤ k ∧ k < r.reserved.1 + r.reserved.2) := by
  decide

/-- A row selects the words with its OP and with the reserved bits of its format 0. -/
theorem OpcodeRow.selects_iff {r : OpcodeRow} (hr : r ∈ opcodeTable) (w : Word64) :
    r.selects w ↔ field w 0 4 = r.op ∧ field w r.reserved.1 r.reserved.2 = 0 := by
  obtain ⟨hp, hlo, hn, hm⟩ := opcodeTable_masks r hr
  rw [OpcodeRow.selects, hp]
  exact and_mask_eq_iff w hlo hn hm

/-- The row of a command. -/
def Instr.row (i : Instr) : OpcodeRow :=
  opcodeTable[(Laws.OpcodeField.opcode i).toNat]'(by
    cases i <;> simp [Laws.OpcodeField.opcode, opcodeTable])

theorem Instr.row_mem (i : Instr) : i.row ∈ opcodeTable := List.getElem_mem _

theorem Instr.row_mnemonic (i : Instr) : i.row.mnemonic = i.mnemonic := by cases i <;> rfl

/-- The row of a command selects every word with the command's format. -/
theorem HasFormat.selects_row {w : Word64} {i : Instr} (h : HasFormat w i) : i.row.selects w := by
  rw [OpcodeRow.selects_iff i.row_mem]
  cases i with
  | nop | abort => exact h
  | encode | ldfr =>
    obtain ⟨hop, hres, -⟩ := h
    exact ⟨hop, hres⟩
  | parity | bcd | syns | synm =>
    obtain ⟨hop, hres, -, -⟩ := h
    exact ⟨hop, hres⟩

/-- A word that a row selects has the format of a command of that row. -/
theorem exists_hasFormat_of_selects {w : Word64} {r : OpcodeRow} (hr : r ∈ opcodeTable) (h : r.selects w) :
    ∃ i, HasFormat w i ∧ i.row = r := by
  obtain ⟨hop, hres⟩ := (OpcodeRow.selects_iff hr w).1 h
  simp only [opcodeTable, List.mem_cons, List.not_mem_nil, or_false] at hr
  rcases hr with rfl | rfl | rfl | rfl | rfl | rfl | rfl | rfl
  · exact ⟨.nop, ⟨hop, hres⟩, rfl⟩
  · exact ⟨.encode (decodeTime w), ⟨hop, hres, rfl⟩, rfl⟩
  · exact ⟨.parity _ _, ⟨hop, hres, rfl, rfl⟩, rfl⟩
  · exact ⟨.bcd _ _, ⟨hop, hres, rfl, rfl⟩, rfl⟩
  · exact ⟨.syns _ _, ⟨hop, hres, rfl, rfl⟩, rfl⟩
  · exact ⟨.synm _ _, ⟨hop, hres, rfl, rfl⟩, rfl⟩
  · exact ⟨.abort, ⟨hop, hres⟩, rfl⟩
  · exact ⟨.ldfr _, ⟨hop, hres, rfl⟩, rfl⟩

/-- The OP column tells the rows apart. -/
theorem opcodeTable_op_inj {r r' : OpcodeRow} (hr : r ∈ opcodeTable) (hr' : r' ∈ opcodeTable)
    (h : r.op = r'.op) : r = r' :=
  List.inj_on_of_nodup_map (f := OpcodeRow.op) (l := opcodeTable) (by decide) hr hr' h

/-- The one ill-formed term is SYNS with SYM = 3 (rule R80 (c)). -/
theorem HasFormat.wellFormed_iff {w : Word64} {i : Instr} (h : HasFormat w i) :
    i.wellFormed = true ↔ ¬ (i.mnemonic = "SYNS" ∧ field w 4 2 = 3) := by
  cases i with
  | syns sym sr =>
    obtain ⟨-, -, rfl, -⟩ := h
    simp [Instr.wellFormed, Instr.mnemonic]
  | _ => simp [Instr.wellFormed, Instr.mnemonic]

end Sys2Proof

namespace Sys2Proof.Machine

/-- An unfaulted block takes the issue of a word that does not decode as ILLEGAL_CMD (rule R80). -/
theorem step_issue_illegal {s : State} {w : Word64} {rest : List Turn} (hf : s.fault = false)
    (hs : s.schedule = .issue w :: rest) (hd : decode w = none) :
    step s = .next (raiseFault .illegalCmd w (tick (popTurn rest s))) := by
  rw [step_turn hs]
  simp [perform, issue, hf, hd]

end Sys2Proof.Machine

namespace Sys2Proof.Claims
open Sys2Proof.Machine

/-- Settles O1: a word has the format of a command iff it is the command's word, and decoding reads that
format. -/
theorem decodeAndEncodeAgree : Obligations.DecodeAndEncodeAgree := by
  refine ⟨fun i hwf => ?_, fun w i hd => ?_⟩
  · exact (decode_eq_some_iff _ i).2 ⟨hwf, (eq_encode_iff _ i).1 rfl⟩
  · obtain ⟨hwf, hformat⟩ := (decode_eq_some_iff w i).1 hd
    exact ⟨hwf, ((eq_encode_iff w i).2 hformat).symm⟩

/-- Settles O2: a row selects a word iff the word has the format of a command of that row. -/
theorem decodeFollowsTheOpcodeTable : Obligations.DecodeFollowsTheOpcodeTable := by
  refine ⟨fun w => ⟨fun hd => ?_, ?_⟩, fun w i hd => ?_, fun w r hr r' hr' h h' => ?_⟩
  · obtain ⟨i, hd⟩ := Option.isSome_iff_exists.1 hd
    obtain ⟨hwf, hformat⟩ := (decode_eq_some_iff w i).1 hd
    exact ⟨i.row, i.row_mem, hformat.selects_row, by rwa [i.row_mnemonic, ← hformat.wellFormed_iff]⟩
  · rintro ⟨r, hr, hsel, hsyns⟩
    obtain ⟨i, hformat, rfl⟩ := exists_hasFormat_of_selects hr hsel
    rw [i.row_mnemonic, ← hformat.wellFormed_iff] at hsyns
    exact Option.isSome_iff_exists.2 ⟨i, (decode_eq_some_iff w i).2 ⟨hsyns, hformat⟩⟩
  · obtain ⟨-, hformat⟩ := (decode_eq_some_iff w i).1 hd
    exact ⟨i.row, i.row_mem, hformat.selects_row, i.row_mnemonic⟩
  · obtain ⟨hop, -⟩ := (OpcodeRow.selects_iff hr w).1 h
    obtain ⟨hop', -⟩ := (OpcodeRow.selects_iff hr' w).1 h'
    exact opcodeTable_op_inj hr hr' (hop.symm.trans hop')

/-- Settles O3: OP by OP the decoder refuses what rule R80 lists, and NOP has one word. -/
theorem illegalWordsRaiseIllegalCmd : Obligations.IllegalWordsRaiseIllegalCmd := by
  refine ⟨decode_eq_none_iff, fun w hw s rest hf hs => ?_, fun w => ?_⟩
  · exact step_issue_illegal hf hs ((decode_eq_none_iff w).2 hw)
  · rw [decode_eq_some_iff, ← eq_encode_iff]
    exact and_iff_right rfl

end Sys2Proof.Claims
end

section
/-! SUPPORT. The BCD field rule and BCD (40_bcd_encoder.md rules R100 to R102, R120, R121). -/

namespace Sys2Proof.Machine

/-! ### The field of a value, at the two kinds of widths -/

theorem bcdField_binary (v : Nat) {w : Nat} (hw : w ≤ 4) : bcdField v w = v := if_pos hw

theorem bcdField_packed (v : Nat) {w : Nat} (hw : 4 < w) : bcdField v w = v % 10 + 16 * (v / 10) :=
  if_neg (by omega)

theorem fits_binary_iff (v : Nat) {w : Nat} (hw : w ≤ 4) : fits v w ↔ v < 2 ^ w := by
  rw [fits, if_pos hw]

theorem fits_packed_iff (v : Nat) {w : Nat} (hw : 4 < w) : fits v w ↔ v < 10 * 2 ^ (w - 4) := by
  rw [fits, if_neg (by omega), Nat.div_lt_iff_lt_mul (by decide), Nat.mul_comm]

theorem bcdValue_binary (f : Nat) {w : Nat} (hw : w ≤ 4) : bcdValue f w = f % 2 ^ w := if_pos hw

theorem bcdValue_packed (f : Nat) {w : Nat} (hw : 4 < w) :
    bcdValue f w = f % 16 + 10 * (f / 16 % 2 ^ (w - 4)) := if_neg (by omega)

/-! ### A value that fits -/

/-- The decoding law: the ones digit is below 16, and the tens are below 2^(W-4). -/
theorem bcdValue_bcdField {v w : Nat} (h : fits v w) : bcdValue (bcdField v w) w = v := by
  by_cases hw : w ≤ 4
  · rw [bcdValue_binary _ hw, bcdField_binary v hw, Nat.mod_eq_of_lt ((fits_binary_iff v hw).1 h)]
  · rw [Nat.not_le] at hw
    have htens : v / 10 < 2 ^ (w - 4) := by
      have := (fits_packed_iff v hw).1 h
      omega
    have hones : bcdField v w % 16 = v % 10 := by rw [bcdField_packed v hw]; omega
    have hrest : bcdField v w / 16 = v / 10 := by rw [bcdField_packed v hw]; omega
    rw [bcdValue_packed _ hw, hones, hrest, Nat.mod_eq_of_lt htens, Nat.mod_add_div]

/-- The field of a value that fits has W bits. -/
theorem bcdField_lt {v w : Nat} (h : fits v w) : bcdField v w < 2 ^ w := by
  by_cases hw : w ≤ 4
  · rw [bcdField_binary v hw]
    exact (fits_binary_iff v hw).1 h
  · rw [Nat.not_le] at hw
    have hlt := (fits_packed_iff v hw).1 h
    have hpow : 2 ^ w = 16 * 2 ^ (w - 4) := by rw [← Nat.pow_add 2 4]; congr 1; omega
    rw [bcdField_packed v hw]
    omega

/-! ### A BCD field among the bits of a word -/

theorem bcdValue_extract {n lo v w : Nat} {f : BitVec n}
    (hf : f.extractLsb' lo w = BitVec.ofNat w (bcdField v w)) (h : fits v w) :
    bcdValue (f.extractLsb' lo w).toNat w = v := by
  rw [hf, BitVec.toNat_ofNat, Nat.mod_eq_of_lt (bcdField_lt h), bcdValue_bcdField h]

/-- Above four bits the value is read from the two digits' own fields. -/
theorem extract_digits {n lo v m : Nat} {f : BitVec n} (hm : 0 < m)
    (hf : f.extractLsb' lo (m + 4) = BitVec.ofNat (m + 4) (bcdField v (m + 4))) (h : fits v (m + 4)) :
    (f.extractLsb' lo 4).toNat + 10 * (f.extractLsb' (lo + 4) m).toNat = v := by
  have hones : (f.extractLsb' lo (m + 4)).extractLsb' 0 4 = f.extractLsb' lo 4 :=
    extract_extract f (by omega)
  have htens : (f.extractLsb' lo (m + 4)).extractLsb' 4 m = f.extractLsb' (lo + 4) m :=
    extract_extract f (by omega)
  have hv := bcdValue_extract hf h
  rw [bcdValue_packed _ (by omega), Nat.add_sub_cancel] at hv
  rw [← hones, ← htens, BitVec.extractLsb'_toNat, BitVec.extractLsb'_toNat]
  simpa [Nat.shiftRight_eq_div_pow] using hv

/-- Up to four bits the field is the value. -/
theorem extract_binary {n lo v w : Nat} {f : BitVec n} (hw : w ≤ 4)
    (hf : f.extractLsb' lo w = BitVec.ofNat w (bcdField v w)) (h : fits v w) :
    (f.extractLsb' lo w).toNat = v := by
  have hv := bcdValue_extract hf h
  rwa [bcdValue_binary _ hw, Nat.mod_eq_of_lt (BitVec.isLt _)] at hv

/-! ### BCD -/

theorem exec_bcd_fits {w : BitVec 4} {v : BitVec 8} {s : State} (hs : s.fault = false)
    (hw : widthLegal w) (h : fits v.toNat w.toNat) :
    exec (.bcd w v) s = .next (writeResult (BitVec.ofNat 32 (bcdField v.toNat w.toNat)) s) := by
  rw [exec, execBcd, gated_open _ hs, if_neg (not_not_intro hw), if_neg (not_not_intro h)]

theorem exec_bcd_illegal_width {w : BitVec 4} {v : BitVec 8} {s : State} (hs : s.fault = false)
    (hw : ¬ widthLegal w) :
    exec (.bcd w v) s = .next (raiseFault .illegalOperand (encode (.bcd w v)) s) := by
  rw [exec, execBcd, gated_open _ hs, if_pos hw]

theorem exec_bcd_not_fits {w : BitVec 4} {v : BitVec 8} {s : State} (hs : s.fault = false)
    (hw : widthLegal w) (h : ¬ fits v.toNat w.toNat) :
    exec (.bcd w v) s = .next (raiseFault .range (encode (.bcd w v)) s) := by
  rw [exec, execBcd, gated_open _ hs, if_neg (not_not_intro hw), if_pos h]

end Sys2Proof.Machine

namespace Sys2Proof.Claims
open Sys2Proof.Machine

/-- The fault that `IllegalWordsRaiseIllegalCmd` gives a word of rule R80. -/
theorem Illegal.raises {w : Word64} (h : Illegal w) : RaisesIllegalCmd w := by
  obtain ⟨-, hraises, -⟩ := illegalWordsRaiseIllegalCmd
  exact hraises w h

/-- Settles O18: the two clauses are the decoding law at the two kinds of widths. -/
theorem bcdFieldDecodesBack : Obligations.BcdFieldDecodesBack := by
  intro v w _ h
  have hv := bcdValue_bcdField h
  refine ⟨fun hw => ?_, fun hw => ?_⟩
  · rwa [bcdValue_packed _ hw] at hv
  · rwa [bcdValue_binary _ hw] at hv

/-- Settles O20: each width's largest value is the bound of `fits` at that width. -/
theorem bcdCornerCases : Obligations.BcdCornerCases := by
  refine ⟨fun v w hw => ?_, fun v w hw => bcdField_binary v hw, fun w => ?_, rfl, fun v => ?_⟩
  · rw [bcdField_packed v hw, Nat.add_comm]
  · by_cases hw : w ≤ 4
    · exact bcdField_binary 0 hw
    · exact bcdField_packed 0 (Nat.not_le.1 hw)
  · refine ⟨?_, ?_, ?_, ?_, ?_, ?_, ?_, ?_⟩
    iterate 4 · rw [fits_binary_iff v (by decide)]; omega
    iterate 4 · rw [fits_packed_iff v (by decide)]; omega

/-- Settles O19: the width is checked first, then the fit. -/
theorem bcdWritesTheField : Obligations.BcdWritesTheField := by
  refine ⟨fun w v s hs h1 h8 h => exec_bcd_fits hs ⟨h1, h8⟩ h, fun w v s hs hw => ?_,
    fun w v s hs h1 h8 h => exec_bcd_not_fits hs ⟨h1, h8⟩ h,
    fun w hop hres => Illegal.raises (by simpa [Illegal, hop] using hres)⟩
  refine exec_bcd_illegal_width hs fun ⟨h1, h8⟩ => ?_
  rw [Config.bcdMaxWidth] at h8
  omega

end Sys2Proof.Claims
end

section
/-! SUPPORT. The minute frame, its symbols, and the commands that write FRAME (40_bcd_encoder.md rules R103 to
R114, R125). -/

namespace Sys2Proof.Machine

/-! ### The symbols of a frame -/

@[simp] theorem frameSymbol_terminator (f : FrameData) : frameSymbol f 59 = .term := rfl

theorem frameSymbol_data (f : FrameData) {k : Nat} (hk : k ≠ 59) :
    frameSymbol f k = if f.getLsbD k then .one else .zero := if_neg hk

/-- Only position 59 holds the terminator. -/
theorem frameSymbol_eq_term_iff (f : FrameData) (k : Nat) : frameSymbol f k = .term ↔ k = 59 := by
  by_cases hk : k = 59
  · simp [hk]
  · rw [frameSymbol_data f hk]
    cases f.getLsbD k <;> simp [hk]

@[simp] theorem frameSymbols_length (f : FrameData) (start : Nat) :
    (frameSymbols f start).length = 60 - start := by
  simp [frameSymbols]

theorem frameSymbols_getElem? (f : FrameData) {start j : Nat} (hj : j < 60 - start) :
    (frameSymbols f start)[j]? = some (frameSymbol f (start + j)) := by
  simp [frameSymbols, hj]

/-! ### The parity groups -/

/-- A string followed by its parity bit has an even number of ones (rule R141). -/
theorem ones_parity_append_even {n : Nat} (v : BitVec n) : ones (parity v n ++ v) (n + 1) % 2 = 0 := by
  rw [ones_append, ones_one, parity_toNat]
  omega

/-- The same for a field of a word with its parity bit above it. -/
theorem ones_extract_even {n lo a : Nat} {f : BitVec n}
    (h : f.extractLsb' (lo + a) 1 = parity (f.extractLsb' lo a) a) :
    ones (f.extractLsb' lo (a + 1)) (a + 1) % 2 = 0 := by
  have heven := ones_parity_append_even (f.extractLsb' lo a)
  rw [← h, append_fields f rfl] at heven
  rwa [Nat.add_comm 1 a] at heven

/-! ### The frame of a civil time -/

/-- A date group holds the four fields of the date (rule R103). -/
theorem extract_eq_dateBits_iff {n lo : Nat} (f : BitVec n) (t : CivilTime) :
    f.extractLsb' lo 22 = dateBits t ↔
      f.extractLsb' lo 6 = bcdBits 6 t.day.toNat ∧ f.extractLsb' (lo + 6) 3 = bcdBits 3 t.wday.toNat ∧
      f.extractLsb' (lo + 9) 5 = bcdBits 5 t.mon.toNat ∧
      f.extractLsb' (lo + 14) 8 = bcdBits 8 t.year.toNat := by
  unfold dateBits
  rw [extract_eq_append_iff 6, extract_eq_append_iff 3, extract_eq_append_iff 5]

/-! The DST pair (rule R106) -/

theorem not_eq_one_sub : ∀ b : BitVec 1, ~~~b = 1 - b := by decide

theorem toNat_add_one_sub : ∀ b : BitVec 1, b.toNat + (1 - b).toNat = 1 := by decide

/-- The frame of a civil time, cut into the fields of rule R103 from position 0 up. -/
theorem timeFrame_isFrameOf (cfg : Config) (t : CivilTime) : Claims.IsFrameOf cfg t (timeFrame cfg t) := by
  generalize hf : timeFrame cfg t = f
  have hcut := hf.symm
  unfold timeFrame at hcut
  dsimp only at hcut
  rw [eq_append_iff 17, extract_eq_append_iff 1, extract_eq_append_iff 1, extract_eq_append_iff 2,
    extract_eq_append_iff 7, extract_eq_append_iff 1, extract_eq_append_iff 6, extract_eq_append_iff 1,
    extract_eq_append_iff 22] at hcut
  obtain ⟨hpreamble, hdst, hnodst, hmarker, hmin, hminParity, hhour, hhourParity, hdate, hdateParity⟩ := hcut
  obtain ⟨h19, h20⟩ := (extract_eq_append_iff 1 f (1#1) (0#1)).1 hmarker
  obtain ⟨hday, hwday, hmon, hyear⟩ := (extract_eq_dateBits_iff f t).1 hdate
  rw [← hmin] at hminParity
  rw [← hhour] at hhourParity
  rw [← hdate] at hdateParity
  exact ⟨hpreamble, hdst, hnodst.trans (not_eq_one_sub _), h19, h20, hmin, hminParity, hhour, hhourParity,
    hday, hwday, hmon, hyear, hdateParity⟩

/-! ### ENCODE and LDFR -/

/-- The model's range check is that of rules R73 and R110. -/
theorem timeInRange_iff (t : CivilTime) : timeInRange t ↔ Claims.InRange t := by
  unfold Claims.InRange
  simp only [timeInRange, BitVec.le_def]
  rfl

theorem exec_encode_inRange {t : CivilTime} {s : State} (hs : s.fault = false) (h : Claims.InRange t) :
    exec (.encode t) s = .next (writeFrame (timeFrame s.cfg t) s) := by
  rw [exec, execEncode, gated_open _ hs, if_pos ((timeInRange_iff t).2 h)]

theorem exec_encode_outOfRange {t : CivilTime} {s : State} (hs : s.fault = false) (h : ¬ Claims.InRange t) :
    exec (.encode t) s = .next (raiseFault .range (encode (.encode t)) s) := by
  rw [exec, execEncode, gated_open _ hs, if_neg (mt (timeInRange_iff t).1 h)]

/-- The only state an ENCODE in range answers. -/
theorem eq_of_exec_encode {t : CivilTime} {s u : State} (hs : s.fault = false) (h : Claims.InRange t)
    (hu : exec (.encode t) s = .next u) : u = writeFrame (timeFrame s.cfg t) s :=
  Host.Outcome.next.inj (hu.symm.trans (exec_encode_inRange hs h))

/-- FRAME after an ENCODE in range. -/
theorem isFrameOf_of_exec_encode {t : CivilTime} {s u : State} (hs : s.fault = false)
    (h : Claims.InRange t) (hu : exec (.encode t) s = .next u) : Claims.IsFrameOf s.cfg t u.frame := by
  rw [eq_of_exec_encode hs h hu]
  exact timeFrame_isFrameOf _ t

theorem exec_ldfr (fr : FrameData) {s : State} (hs : s.fault = false) :
    exec (.ldfr fr) s = .next (writeFrame fr s) := gated_open _ hs

/-- Rule R111: a value in its range fits its field. -/
theorem fits_of_inRange {t : CivilTime} (h : Claims.InRange t) :
    fits t.min.toNat 7 ∧ fits t.hour.toNat 6 ∧ fits t.day.toNat 6 ∧ fits t.wday.toNat 3 ∧
      fits t.mon.toNat 5 ∧ fits t.year.toNat 8 := by
  obtain ⟨hmin, hhour, -, hday, hwday, -, hmon, hyear⟩ := h
  refine ⟨?_, ?_, ?_, (fits_binary_iff _ (by decide)).2 (by omega), ?_, ?_⟩
  all_goals exact (fits_packed_iff _ (by decide)).2 (by omega)

end Sys2Proof.Machine

namespace Sys2Proof.Claims
open Sys2Proof.Machine

/-- Settles O13: FRAME is written as the concatenation of the frame's fields. -/
theorem encodeWritesTheMinuteFrame : Obligations.EncodeWritesTheMinuteFrame :=
  ⟨fun t s hs h => ⟨timeFrame s.cfg t, timeFrame_isFrameOf s.cfg t, exec_encode_inRange hs h⟩,
    fun _ _ hs h => exec_encode_outOfRange hs h,
    fun _ hop hres => Illegal.raises (by simpa [Illegal, hop] using hres)⟩

/-- Settles O14: each field of the frame is the BCD field of a value that fits. -/
theorem encodeFieldsDecodeBack : Obligations.EncodeFieldsDecodeBack := by
  intro t s u hs h hu
  obtain ⟨-, -, -, -, -, hmin, -, hhour, -, hday, hwday, hmon, hyear, -⟩ := isFrameOf_of_exec_encode hs h hu
  obtain ⟨fmin, fhour, fday, fwday, fmon, fyear⟩ := fits_of_inRange h
  exact ⟨fmin, fhour, fday, fwday, fmon, fyear, extract_digits (by decide) hmin fmin,
    extract_digits (by decide) hhour fhour, extract_digits (by decide) hday fday,
    extract_binary (by decide) hwday fwday, extract_digits (by decide) hmon fmon,
    extract_digits (by decide) hyear fyear⟩

/-- Settles O15: each group is a string followed by its parity bit, and position 59 alone is no data bit. -/
theorem encodeFramesAreWellFormedFrames : Obligations.EncodeFramesAreWellFormedFrames := by
  intro t s u hs h hu
  obtain ⟨-, hdst, hnodst, h19, h20, -, hminParity, -, hhourParity, -, -, -, -, hdateParity⟩ :=
    isFrameOf_of_exec_encode hs h hu
  refine ⟨?_, ?_, ?_, ones_extract_even hminParity, ones_extract_even hhourParity,
    ones_extract_even hdateParity, frameSymbols_length _ _, fun k hk => ?_⟩
  · rw [hdst, hnodst]
    exact toNat_add_one_sub t.dst
  · simpa using congrArg (BitVec.getLsbD · 0) h19
  · simpa using congrArg (BitVec.getLsbD · 0) h20
  · rw [frameSymbols_getElem? _ hk, Option.some_inj, Nat.zero_add, frameSymbol_eq_term_iff]

/-- Settles O16: the frame is a function of the configuration and the operands. -/
theorem encodeDependsOnOperandsOnly : Obligations.EncodeDependsOnOperandsOnly := by
  intro t s s' u u' hs hs' hcfg h hu hu'
  rw [eq_of_exec_encode hs h hu, eq_of_exec_encode hs' h hu']
  exact ⟨congrArg (timeFrame · t) hcfg, rfl, rfl, rfl, rfl⟩

/-- Settles O17, by the equation of a frame's symbol at a data bit. -/
theorem frameSymbolsFollowTheData : Obligations.FrameSymbolsFollowTheData := by
  refine ⟨frameSymbol_terminator, fun f k hk => ?_,
    fun f start _ => ⟨frameSymbols_length f start, fun j hj => frameSymbols_getElem? f hj⟩⟩
  rw [frameSymbol_data f hk.ne]
  exact ⟨fun h => if_pos h, fun h => if_neg (Bool.eq_false_iff.1 h)⟩

/-- Settles O21: LDFR checks nothing but the reserved bit. -/
theorem ldfrLoadsTheFrame : Obligations.LdfrLoadsTheFrame :=
  ⟨fun fr _ hs => exec_ldfr fr hs,
    fun _ hop hres => Illegal.raises (by simpa [Illegal, hop] using hres)⟩

/-- Settles O4, by running the decoder on the eight words. -/
theorem specExampleWordsDecode : Obligations.SpecExampleWordsDecode := by
  unfold Obligations.SpecExampleWordsDecode
  decide

end Sys2Proof.Claims
end

section
/-! SUPPORT. Parity and PARITY (41_parity.md rules R140 to R146). -/

namespace Sys2Proof.Machine

/-! ### The parity of a string -/

/-- A one-bit number is even or odd, so the reduction modulo 2 in `parity` is that of its width. -/
theorem parity_eq_ofNat {n : Nat} (v : BitVec n) (len : Nat) : parity v len = BitVec.ofNat 1 (ones v len) := by
  apply BitVec.eq_of_toNat_eq
  rw [parity_toNat, BitVec.toNat_ofNat]

/-- The parity of a concatenation (rule R142): one-bit addition is the exclusive or. -/
theorem parity_append {n m : Nat} (a : BitVec n) (b : BitVec m) (len : Nat) :
    parity (b ++ a) (n + len) = parity a n ^^^ parity b len := by
  simp only [parity_eq_ofNat, ones_append, BitVec.ofNat_add, BitVec.add_eq_xor]

/-- Only the bits of the string matter, whatever the widths (rule R146 (b)). -/
theorem parity_congr {n m : Nat} {a : BitVec n} {b : BitVec m} {len : Nat}
    (h : ∀ k < len, a.getLsbD k = b.getLsbD k) : parity a len = parity b len := by
  rw [parity, parity, ones_congr a b len h]

/-- A string padded with zeros on the left keeps its parity. -/
theorem parity_setWidth {n m len : Nat} (v : BitVec n) (h : len ≤ m) :
    parity (v.setWidth m) len = parity v len := by
  refine parity_congr fun k hk => ?_
  rw [BitVec.getLsbD_setWidth, decide_eq_true (hk.trans_le h), Bool.true_and]

/-- The parity of the date group, one field after the other (rule R142). -/
theorem parity_dateBits (t : CivilTime) :
    parity (dateBits t) 22 =
      parity (bcdBits 6 t.day.toNat) 6 ^^^ parity (bcdBits 3 t.wday.toNat) 3
        ^^^ parity (bcdBits 5 t.mon.toNat) 5 ^^^ parity (bcdBits 8 t.year.toNat) 8 := by
  unfold dateBits
  rw [parity_append _ _ 16, parity_append _ _ 13, parity_append _ _ 8, BitVec.xor_assoc, BitVec.xor_assoc]

/-! ### A parity bit in a register of 32 bits -/

theorem setWidth_parity {n : Nat} (v : BitVec n) (len : Nat) :
    (parity v len).setWidth 32 = BitVec.ofNat 32 (ones v len % 2) := by
  apply BitVec.eq_of_toNat_eq
  rw [BitVec.toNat_setWidth, parity_toNat, BitVec.toNat_ofNat]

theorem extract_setWidth_bit : ∀ b : BitVec 1, (b.setWidth 32).extractLsb' 1 31 = 0 := by decide

/-! ### PARITY -/

theorem exec_parity_legal {len : BitVec 6} (data : BitVec 48) {s : State} (hs : s.fault = false)
    (h : lengthLegal len) :
    exec (.parity len data) s = .next (writeResult ((parity data len.toNat).setWidth 32) s) := by
  rw [exec, execParity, gated_open _ hs, if_pos h]

theorem exec_parity_illegal_length {len : BitVec 6} (data : BitVec 48) {s : State} (hs : s.fault = false)
    (h : ¬ lengthLegal len) :
    exec (.parity len data) s = .next (raiseFault .illegalOperand (encode (.parity len data)) s) := by
  rw [exec, execParity, gated_open _ hs, if_neg h]

/-- RESULT after a PARITY of a legal length. -/
theorem result_of_exec_parity {len : BitVec 6} {data : BitVec 48} {s u : State} (hs : s.fault = false)
    (h : lengthLegal len) (hu : exec (.parity len data) s = .next u) :
    u.result = (parity data len.toNat).setWidth 32 := by
  obtain rfl := Host.Outcome.next.inj (hu.symm.trans (exec_parity_legal data hs h))
  rfl

end Sys2Proof.Machine

namespace Sys2Proof.Claims
open Sys2Proof.Machine

/-- Settles O23: the counts of ones of two strings add up, and the parity bit is the count in one bit. -/
theorem parityLaws : Obligations.ParityLaws :=
  ⟨fun _ v => ones_parity_append_even v, fun _ m a b => parity_append a b m, parity_dateBits⟩

/-- Settles O24: the date bits of a frame, padded to the operand's width, keep their parity, and that is
FRAME[58]. -/
theorem parityCornerCases : Obligations.ParityCornerCases := by
  refine ⟨fun _ => rfl, fun _ _ _ h => parity_congr h, by decide, by decide, fun len data s u hs h hu => ?_,
    fun t s u v hs h hu hv => ?_⟩
  · rw [result_of_exec_parity hs h hu]
    exact extract_setWidth_bit _
  · have hfault : u.fault = false := by rwa [eq_of_exec_encode hs h hu]
    obtain ⟨-, -, -, -, -, -, -, -, -, -, -, -, -, hdateParity⟩ := isFrameOf_of_exec_encode hs h hu
    rw [hdateParity, ← parity_setWidth (m := 48) _ (by decide)]
    exact result_of_exec_parity hfault (by decide) hv

/-- Settles O22: PARITY checks nothing but the length and the reserved bits. -/
theorem parityWritesTheBit : Obligations.ParityWritesTheBit := by
  refine ⟨fun len data s hs h => ?_, fun len data s hs h => exec_parity_illegal_length data hs (Nat.not_le.2 h),
    fun w hop hres => Illegal.raises (by simpa [Illegal, hop] using hres)⟩
  rw [exec_parity_legal data hs h, setWidth_parity]
  rfl

end Sys2Proof.Claims
end

section
/-! SUPPORT. The samples SYN emits and those still to come, through every step (42_synthesizer.md rules R172, R175 to
R177, R180). -/

namespace Sys2Proof.Machine

/-! ### The samples to come -/

/-- The samples to come are a view of the slots. -/
theorem pending_congr {s t : State} (hcur : t.cur = s.cur) (hnext : t.next = s.next) :
    t.pending = s.pending := by
  rw [State.pending, State.pending, hcur, hnext]

theorem start_remaining (e : Slot) : e.start.remaining = e.waveform := by
  simp [Playing.remaining]

theorem pending_playing {s : State} {c : Playing} (hc : s.cur = some c) :
    s.pending = c.remaining ++ (s.next.map Slot.waveform).getD [] := by
  rw [State.pending, hc]
  rfl

/-- The samples left after the one at CUR's position. -/
theorem remaining_tail {c : Playing} (hc : c.Ok) :
    c.remaining.tail = c.slot.waveform.drop (c.ps * c.slot.sr.toNat + c.pi + 1) := by
  obtain ⟨sym, hsym⟩ := hc.symbol
  rw [remaining_cons hsym hc.2.2, List.tail_cons]

/-- `advance` drops one sample of CUR's: it puts CUR at a good position with the others left, or none is left
and the slots are swapped. -/
theorem advance_remaining {c : Playing} (hc : c.Ok) (s : State) :
    (∃ c' : Playing, c'.Ok ∧ c'.remaining = c.remaining.tail ∧ advance c s = { s with cur := some c' }) ∨
    (c.remaining.tail = [] ∧ advance c s = endOfSlot s) := by
  have htail := remaining_tail hc
  obtain ⟨hslot, hps, hpi⟩ := hc
  have ha := advance_cases c s
  generalize advance c s = t at ha
  cases ha with
  | sample hne => exact .inl ⟨{ c with pi := c.pi + 1 }, ⟨hslot, hps, by dsimp only; omega⟩, htail.symm, rfl⟩
  | second heq hne =>
    refine .inl ⟨{ c with ps := c.ps + 1, pi := 0 }, ⟨hslot, by dsimp only; omega, hslot.2.2⟩, ?_, rfl⟩
    rw [htail, Nat.add_assoc, heq, ← Nat.succ_mul]
    rfl
  | swap heq hlast =>
    refine .inr ⟨?_, rfl⟩
    rw [htail, Nat.add_assoc, heq, ← Nat.succ_mul, Nat.succ_eq_add_one, hlast, ← waveform_length]
    exact List.drop_length

/-- The swap drops nothing: NEXT's samples are CUR's. -/
theorem endOfSlot_pending (s : State) : (endOfSlot s).pending = (s.next.map Slot.waveform).getD [] := by
  cases hn : s.next <;> simp [State.pending, hn, start_remaining]

theorem advance_pending {c : Playing} (hc : c.Ok) (s : State) :
    (advance c s).pending = c.remaining.tail ++ (s.next.map Slot.waveform).getD [] := by
  rcases advance_remaining hc s with ⟨c', -, hrem, ha⟩ | ⟨hrem, ha⟩ <;> rw [ha]
  · rw [← hrem]
    rfl
  · rw [hrem, endOfSlot_pending, List.nil_append]

/-- A turn of SYN moves at most one sample from the samples to come to OUT. -/
theorem SynEffect.stream_eq {s t : State} (e : SynEffect s t) (h : s.Inv) :
    t.out ++ t.pending = s.out ++ s.pending := by
  cases e with
  | idle => rfl
  | @sample c sym hc hsym hpi =>
    have hcons := remaining_cons hsym hpi
    have hpending := advance_pending (h.curOk c hc) (emit (sampleAt sym c.pi c.slot.sr) s)
    rw [hcons, List.tail_cons, emit_next] at hpending
    rw [pending_congr (tick_cur _) (tick_next _), hpending, pending_playing hc, hcons, tick_out, advance_frame]
    simp

/-! ### The samples a turn adds -/

/-- The record a command queues has the samples that rule R177 counts for it. -/
theorem Queues.queued_eq {s : State} {i : Instr} {e : Slot} {w : Word64} (h : Queues s i e)
    (hd : decode w = some i) : Claims.queued (.issue w) s = e.waveform := by
  cases h with
  | syns hy hr => simp [Claims.queued, hd, hy, Slot.waveform, symbolSlot]
  | synm hs hr hf => simp [Claims.queued, hd, Slot.waveform, minuteSlot, frameSymbols, List.flatMap_map]

/-- A command that does not fault and is no ABORT adds the samples it queues. -/
theorem Effect.stream_eq {s t : State} {i : Instr} {w : Word64} (e : Effect s i t) (h : s.Inv)
    (ht : t.fault = false) (hd : decode w = some i) (habort : i ≠ .abort) :
    t.out ++ t.pending = s.out ++ s.pending ++ Claims.queued (.issue w) s := by
  cases e with
  | faults => cases ht
  | nothing hi => subst hi; simp [Claims.queued, hd]
  | frame f hi =>
    have hq : Claims.queued (.issue w) s = [] := by
      rcases hi with ⟨c, rfl, -⟩ | rfl <;> simp [Claims.queued, hd]
    rw [hq, List.append_nil]
    rfl
  | result v hi =>
    have hq : Claims.queued (.issue w) s = [] := by
      rcases hi with ⟨n, x, rfl⟩ | ⟨len, d, rfl⟩ <;> simp [Claims.queued, hd]
    rw [hq, List.append_nil]
    rfl
  | abort hi => exact absurd hi habort
  | toCur e hq hcur =>
    have hnext : s.next = none := by
      simpa [State.nextFull, State.curBusy, hcur] using h.nextBehindCur
    rw [hq.queued_eq hd]
    simp [State.pending, hcur, hnext, start_remaining]
  | toNext e hq hcur hnext =>
    rw [hq.queued_eq hd]
    simp [State.pending, hnext]

theorem hostConsume_stream_eq (s : State) :
    (hostConsume s).out ++ (hostConsume s).pending = s.out ++ s.pending := by
  rcases hostConsume_cases s with ⟨-, e⟩ | ⟨_, -, e⟩ <;> rw [e]
  rfl

/-- Rule R177, one turn: OUT and the samples to come grow by what the turn queues. -/
theorem step_stream_eq {s t : State} {turn : Turn} {rest : List Turn} (h : s.Inv)
    (hs : s.schedule = turn :: rest) (hreset : turn ≠ .reset) (habort : turn ≠ .issue (encode .abort))
    (hst : step s = .next t) (ht : t.fault = false) :
    t.out ++ t.pending = s.out ++ s.pending ++ Claims.queued turn s := by
  cases step_effect hst with
  | syn hs' => simp [hs] at hs'
  | synTurn hs' e =>
    cases hs.symm.trans hs'
    exact (e.stream_eq (h.popTurn _)).trans (List.append_nil _).symm
  | discarded _ hf => exact absurd ht (by simp [hf])
  | illegal => cases ht
  | command hs' _ hd e =>
    cases hs.symm.trans hs'
    exact e.stream_eq (h.popTurn _).tick ht hd (by rintro rfl; exact habort (congrArg _ (decode_abort hd)))
  | read hs' => cases hs.symm.trans hs'; exact (List.append_nil _).symm
  | reset hs' => cases hs.symm.trans hs'; exact absurd rfl hreset
  | consume hs' =>
    cases hs.symm.trans hs'
    exact (hostConsume_stream_eq _).trans (List.append_nil _).symm

end Sys2Proof.Machine

namespace Sys2Proof.Claims
open Sys2Proof.Machine

/-- Settles O46, by the inversion of `step`: SYN moves samples from the slots to OUT, and a synthesis command
puts its waveform last in the slots. -/
theorem noSampleIsDroppedRepeatedOrInserted : Obligations.NoSampleIsDroppedRepeatedOrInserted :=
  ⟨fun _ _ h hs hst => (synTurn_effect ((step_syn hs).symm.trans hst)).stream_eq h,
    fun _ _ _ _ h hs hreset habort hst ht => step_stream_eq h hs hreset habort hst ht⟩

end Sys2Proof.Claims
end

section
/-! SUPPORT. Steps of SYN and of the host, one after the other (42_synthesizer.md rules R175 to R180). -/

namespace Sys2Proof.Machine

/-! ### Every step answers a next state -/

/-- Under the invariant SYN has a sample to emit or nothing to do. -/
theorem State.Inv.synTurn_next {s : State} (h : s.Inv) : ∃ t, synTurn s = .next t := by
  cases hc : s.cur with
  | none => exact ⟨s, synTurn_idle hc⟩
  | some c =>
    have hok := h.curOk c hc
    obtain ⟨sym, hsym⟩ := hok.symbol
    exact ⟨_, synTurn_sample hc hsym hok.2.2⟩

theorem issue_next (w : Word64) (s : State) : ∃ t, issue w s = .next t := by
  unfold issue
  split
  · exact ⟨_, rfl⟩
  · split
    · exact ⟨_, rfl⟩
    · exact exec_next _ s

theorem State.Inv.step_next {s : State} (h : s.Inv) : ∃ t, Machine.step s = .next t := by
  cases hs : s.schedule with
  | nil => rw [step_syn hs]; exact h.synTurn_next
  | cons turn rest =>
    rw [step_turn hs]
    cases turn with
    | issue w => exact issue_next w _
    | read n => exact ⟨_, rfl⟩
    | reset => exact ⟨_, rfl⟩
    | consume => exact ⟨_, rfl⟩
    | syn => exact (h.popTurn rest).synTurn_next

/-! ### What a turn other than an issue leaves of FAULT, and every turn of the schedule -/

theorem SynEffect.fault_eq {s t : State} (e : SynEffect s t) : t.fault = s.fault := by
  cases e with
  | idle => rfl
  | sample => rw [advance_frame]; rfl

theorem SynEffect.schedule_eq {s t : State} (e : SynEffect s t) : t.schedule = s.schedule := by
  cases e with
  | idle => rfl
  | sample => rw [advance_frame]; rfl

theorem hostConsume_fault (s : State) : (hostConsume s).fault = s.fault := by
  rcases hostConsume_cases s with ⟨-, e⟩ | ⟨_, -, e⟩ <;> rw [e]

theorem hostConsume_schedule (s : State) : (hostConsume s).schedule = s.schedule := by
  rcases hostConsume_cases s with ⟨-, e⟩ | ⟨_, -, e⟩ <;> rw [e]

/-- Only an issue raises FAULT (rule R230). -/
theorem fault_of_step_not_issue {s t : State} (hst : step s = .next t)
    (hissue : ∀ w rest, s.schedule ≠ .issue w :: rest) (ht : t.fault = true) : s.fault = true := by
  cases step_effect hst with
  | syn _ e => exact e.fault_eq.symm.trans ht
  | synTurn _ e => exact e.fault_eq.symm.trans ht
  | discarded hs => exact absurd hs (hissue _ _)
  | illegal hs => exact absurd hs (hissue _ _)
  | command hs => exact absurd hs (hissue _ _)
  | read => exact ht
  | reset => cases ht
  | consume => rwa [hostConsume_fault] at ht

/-- A step takes the first turn of the schedule. -/
theorem step_schedule {s t : State} (hst : step s = .next t) : t.schedule = s.schedule.tail := by
  cases step_effect hst with
  | syn hs e => rw [e.schedule_eq, hs]; rfl
  | synTurn hs e => rw [e.schedule_eq, hs]; rfl
  | discarded hs => rw [hs]; rfl
  | illegal hs => rw [hs]; rfl
  | command hs _ _ e =>
    obtain ⟨-, -, -, hschedule, -⟩ := e.hostSide_eq
    rw [hschedule, hs]
    rfl
  | read hs => rw [hs]; rfl
  | reset hs => rw [hs]; rfl
  | consume hs => rw [hostConsume_schedule, hs]; rfl

/-! ### A turn of SYN with CUR playing -/

theorem advance_sample {c : Playing} (s : State) (h : c.pi + 1 ≠ c.slot.sr.toNat) :
    advance c s = { s with cur := some { c with pi := c.pi + 1 } } := if_pos h

theorem advance_second {c : Playing} (s : State) (h : c.pi + 1 = c.slot.sr.toNat)
    (h' : c.ps + 1 ≠ c.slot.syms.length) :
    advance c s = { s with cur := some { c with ps := c.ps + 1, pi := 0 } } := by
  rw [advance, if_neg (not_not_intro h), if_pos h']

theorem advance_swap {c : Playing} (s : State) (h : c.pi + 1 = c.slot.sr.toNat)
    (h' : c.ps + 1 = c.slot.syms.length) : advance c s = endOfSlot s := by
  rw [advance, if_neg (not_not_intro h), if_neg (not_not_intro h')]

/-- A good position has a sample left. -/
theorem Playing.Ok.remaining_length_pos {c : Playing} (h : c.Ok) : 0 < c.remaining.length := by
  obtain ⟨sym, hsym⟩ := h.symbol
  rw [remaining_cons hsym h.2.2]
  exact Nat.succ_pos _

/-- A turn of SYN, scheduled or not, emits the sample of CUR's position. -/
theorem step_sample {s : State} {c : Playing} {sym : Symbol} (h : s.SynMoves 1) (hc : s.cur = some c)
    (hsym : c.slot.syms[c.ps]? = some sym) (hpi : c.pi < c.slot.sr.toNat) :
    step s = .next (tick (advance c (emit (sampleAt sym c.pi c.slot.sr) (popTurn s.schedule.tail s)))) := by
  rw [step_synMoves h]
  exact synTurn_sample (s := popTurn s.schedule.tail s) hc hsym hpi

/-- Turns of SYN, as many as CUR has samples left, emit those and swap the slots. -/
theorem run_remaining {k : Nat} {s : State} {c : Playing} (h : s.SynMoves k) (hc : s.cur = some c)
    (hok : c.Ok) (hk : c.remaining.length = k) :
    ∃ t, run k s = .next t ∧ t.out = s.out ++ c.remaining ∧ t.cur = s.next.map Slot.start ∧
      t.next = none ∧ t.fault = s.fault ∧ t.schedule = s.schedule.drop k := by
  induction k generalizing s c with
  | zero => exact absurd hk hok.remaining_length_pos.ne'
  | succ k ih =>
    obtain ⟨sym, hsym⟩ := hok.symbol
    obtain ⟨hfirst, hlater⟩ := h.succ
    have hlen : c.remaining.tail.length = k := by rw [List.length_tail, hk, Nat.add_sub_cancel]
    have hrem : c.remaining = [sampleAt sym c.pi c.slot.sr] ++ c.remaining.tail := by
      rw [remaining_cons hsym hok.2.2]
      rfl
    rw [run_succ (step_sample hfirst hc hsym hok.2.2)]
    rcases advance_remaining hok (emit (sampleAt sym c.pi c.slot.sr) (popTurn s.schedule.tail s)) with
      ⟨c', hok', htail, ha⟩ | ⟨htail, ha⟩ <;> rw [ha]
    · rw [← htail] at hrem hlen
      obtain ⟨t, hrun, hout, hcur, hnext, hfault, hschedule⟩ :=
        ih (s := tick { emit (sampleAt sym c.pi c.slot.sr) (popTurn s.schedule.tail s) with cur := some c' })
          (hlater _ rfl) rfl hok' hlen
      refine ⟨t, hrun, ?_, hcur, hnext, hfault, hschedule.trans List.drop_tail⟩
      rw [hout, hrem, ← List.append_assoc]
      rfl
    · obtain rfl : k = 0 := by rw [← hlen, htail]; rfl
      refine ⟨_, rfl, ?_, rfl, rfl, rfl, List.drop_one.symm⟩
      rw [hrem, htail]
      rfl

/-- Two turns of SYN on equal slots emit the same and leave equal slots (rule R180). -/
theorem synTurn_congr {s s' t t' : State} (hcur : s.cur = s'.cur) (hnext : s.next = s'.next)
    (hst : synTurn s = .next t) (hst' : synTurn s' = .next t') :
    t.cur = t'.cur ∧ t.next = t'.next ∧ ∃ xs, t.out = s.out ++ xs ∧ t'.out = s'.out ++ xs := by
  cases synTurn_effect hst with
  | idle hc =>
    rw [synTurn_idle (hcur.symm.trans hc)] at hst'
    cases hst'
    exact ⟨hcur, hnext, [], by simp⟩
  | @sample c sym hc hsym hpi =>
    rw [synTurn_sample (hcur.symm.trans hc) hsym hpi] at hst'
    cases hst'
    obtain ⟨hcur', hnext'⟩ := advance_slots c
      (s := emit (sampleAt sym c.pi c.slot.sr) s) (s' := emit (sampleAt sym c.pi c.slot.sr) s') hnext
    refine ⟨hcur', hnext', [sampleAt sym c.pi c.slot.sr], ?_, ?_⟩ <;> rw [advance_frame] <;> rfl

/-- The same for several turns of SYN. -/
theorem run_congr {k : Nat} {s s' t t' : State} (h : s.SynMoves k) (h' : s'.SynMoves k)
    (hcur : s.cur = s'.cur) (hnext : s.next = s'.next) (hst : run k s = .next t)
    (hst' : run k s' = .next t') : ∃ xs, t.out = s.out ++ xs ∧ t'.out = s'.out ++ xs := by
  induction k generalizing s s' with
  | zero => cases hst; cases hst'; exact ⟨[], by simp⟩
  | succ k ih =>
    obtain ⟨u, hsu, hut⟩ := run_succ_next hst
    obtain ⟨u', hsu', hut'⟩ := run_succ_next hst'
    obtain ⟨hfirst, hlater⟩ := h.succ
    obtain ⟨hfirst', hlater'⟩ := h'.succ
    obtain ⟨hcur', hnext', xs, hout, hout'⟩ := synTurn_congr (s := popTurn s.schedule.tail s)
      (s' := popTurn s'.schedule.tail s') hcur hnext ((step_synMoves hfirst).symm.trans hsu)
      ((step_synMoves hfirst').symm.trans hsu')
    obtain ⟨ys, htail, htail'⟩ := ih (hlater u (step_schedule hsu)) (hlater' u' (step_schedule hsu'))
      hcur' hnext' hut hut'
    refine ⟨xs ++ ys, ?_, ?_⟩
    · rw [htail, hout, popTurn_out, List.append_assoc]
    · rw [htail', hout', popTurn_out, List.append_assoc]

/-! ### Turns of the host with CUR playing -/

/-- A fault stays through turns that are no reset. -/
theorem run_keeps_fault {k : Nat} {s v : State} (hrun : run k s = .next v) (hf : s.fault = true)
    (hreset : ∀ turn ∈ s.schedule.take k, turn ≠ .reset) : v.fault = true := by
  induction k generalizing s with
  | zero => cases hrun; exact hf
  | succ k ih =>
    obtain ⟨t, hst, htv⟩ := run_succ_next hrun
    refine ih htv (step_keeps_fault hst hf fun rest hs => hreset .reset (by simp [hs]) rfl) fun turn hturn => ?_
    rw [step_schedule hst] at hturn
    refine hreset turn (List.mem_of_mem_tail ?_)
    rw [List.tail_take_eq_take_tail]
    exact hturn

/-- Turns of the host with no ABORT, fault or reset leave a CUR that plays as it is, and emit nothing. -/
theorem run_host_keeps_cur {k : Nat} {s v : State} (hk : k ≤ s.schedule.length)
    (hkeeps : ∀ turn ∈ s.schedule.take k, Claims.HostKeepsSlots turn) (hrun : run k s = .next v)
    (hv : v.fault = false) (hc : s.cur ≠ none) : v.cur = s.cur ∧ v.out = s.out := by
  induction k generalizing s with
  | zero => cases hrun; exact ⟨rfl, rfl⟩
  | succ k ih =>
    obtain ⟨t, hst, htv⟩ := run_succ_next hrun
    cases hs : s.schedule with
    | nil => simp [hs] at hk
    | cons turn rest =>
      rw [hs, List.take_succ_cons, List.forall_mem_cons] at hkeeps
      obtain ⟨⟨hsyn, hreset, habort⟩, hkeeps⟩ := hkeeps
      rw [hs, List.length_cons] at hk
      have hrest : t.schedule = rest := by rw [step_schedule hst, hs]; rfl
      have hf : t.fault = false := by
        refine Bool.eq_false_iff.2 fun hf => ?_
        have := run_keeps_fault htv hf fun turn hturn => (hkeeps turn (hrest ▸ hturn)).2.1
        simp [hv] at this
      obtain ⟨hcur, hout, -⟩ := step_host_keeps_cur hst hs hsyn hreset habort hc hf
      rw [← hcur, ← hout]
      exact ih (hrest ▸ Nat.le_of_succ_le_succ hk) (hrest ▸ hkeeps) htv (hcur ▸ hc)

/-! ### The waveform of a minute -/

theorem minuteSlot_waveform (f : FrameData) (start : BitVec 6) (sr : Word32) :
    (minuteSlot f start sr).waveform =
      (List.range' start.toNat (60 - start.toNat)).flatMap fun k => wave (frameSymbol f k) sr := by
  rw [Slot.waveform, minuteSlot, frameSymbols, List.flatMap_map]

theorem minuteSlot_waveform_length (f : FrameData) (start : BitVec 6) (sr : Word32) :
    (minuteSlot f start sr).waveform.length = (60 - start.toNat) * sr.toNat := by
  rw [waveform_length, minuteSlot, frameSymbols_length]

/-- The minute from START on is the full minute less its first START seconds. -/
theorem minuteSlot_waveform_drop (f : FrameData) {start : BitVec 6} (sr : Word32) (h : start.toNat ≤ 59) :
    (minuteSlot f start sr).waveform = (minuteSlot f 0 sr).waveform.drop (start.toNat * sr.toNat) := by
  have hsplit : List.range' 0 60 = List.range' 0 start.toNat ++ List.range' start.toNat (60 - start.toNat) := by
    have := List.range'_append_1 (s := 0) (m := start.toNat) (n := 60 - start.toNat)
    rw [Nat.zero_add, Nat.add_sub_cancel' (by omega)] at this
    exact this.symm
  have hlen : ((List.range' 0 start.toNat).flatMap fun k => wave (frameSymbol f k) sr).length =
      start.toNat * sr.toNat := by
    simp [List.length_flatMap, wave_length]
  rw [minuteSlot_waveform, minuteSlot_waveform f 0]
  change _ = ((List.range' 0 60).flatMap fun k => wave (frameSymbol f k) sr).drop _
  rw [hsplit, List.flatMap_append, ← hlen, List.drop_left]

end Sys2Proof.Machine

namespace Sys2Proof.Claims
open Sys2Proof.Machine

/-- Settles O6: SYN's turn completes by the invariant, the host's always do, and only an issue raises FAULT. -/
theorem everyStepCompletes : Obligations.EveryStepCompletes := by
  intro s h
  obtain ⟨t, hst⟩ := h.step_next
  exact ⟨t, hst, fault_of_step_not_issue hst⟩

/-- Settles O42: SYN's turn is `advance` after the sample's emission, which moves the slots alone. -/
theorem synStepEmitsOneSample : Obligations.SynStepEmitsOneSample := by
  intro s c sym h hc hsym hpi
  refine ⟨_, step_sample h hc hsym hpi, ?_, ?_, fun hmid => ?_, fun hend hmid => ?_, fun hend hlast => ?_⟩
  · rw [advance_frame]; rfl
  · rw [advance_frame]; rfl
  · rw [advance_sample _ hmid.ne]; exact ⟨rfl, rfl⟩
  · rw [advance_second _ hend hmid.ne]; exact ⟨rfl, rfl⟩
  · rw [advance_swap _ hend hlast]; exact ⟨rfl, rfl⟩

/-- Settles O44: with CUR empty `synTurn` answers its own state. -/
theorem idleSynthesizerDoesNothing : Obligations.IdleSynthesizerDoesNothing := by
  refine ⟨fun s hc hs => (step_syn hs).trans (synTurn_idle hc), fun s rest hc hs => ?_⟩
  exact (step_turn hs).trans (synTurn_idle (s := popTurn rest s) hc)

/-- Settles O43: the swap puts NEXT's record in CUR, the host's turns leave it there, and SYN's next step emits
the sample of its start. -/
theorem swapLeavesNoGap : Obligations.SwapLeavesNoGap := by
  intro s c h hmoves hc hps hpi
  have hok := h.curOk c hc
  obtain ⟨sym, hsym⟩ := hok.symbol
  have hst := step_sample hmoves hc hsym hok.2.2
  rw [advance_swap _ hpi hps] at hst
  refine ⟨_, sampleAt sym c.pi c.slot.sr, hst, rfl, rfl, rfl, fun hn => by simp [hn], fun e hn => ?_⟩
  have hstart := Slot.start_ok (h.nextOk e hn)
  obtain ⟨y, hy⟩ := hstart.symbol
  have hcur : s.next.map Slot.start = some e.start := by rw [hn]; rfl
  refine ⟨hcur, y, hy, fun k v hk hkeeps hrun hv hmoves' => ?_⟩
  obtain ⟨hvcur, hvout⟩ := run_host_keeps_cur hk hkeeps hrun hv (by simp [hn])
  refine ⟨_, step_sample hmoves' (hvcur.trans hcur) hy hstart.2.2, ?_⟩
  rw [advance_frame, tick_out]
  simp [hvout]

/-- Settles O45, by induction on the samples CUR has left. -/
theorem slotsEmitTheirWaveform : Obligations.SlotsEmitTheirWaveform := by
  refine ⟨fun s e h hc hok => ?_, fun f start sr h => ⟨minuteSlot_waveform f start sr,
    minuteSlot_waveform_length f start sr, minuteSlot_waveform_drop f sr h⟩⟩
  have hrem : e.start.remaining = (e.syms.map fun y => wave y e.sr).flatten := start_remaining e
  rw [← hrem]
  exact run_remaining h hc (Slot.start_ok hok) (by rw [start_remaining, waveform_length])

/-- Settles O47, by induction on the turns: each leaves equal slots again. -/
theorem samplesDependOnTheSlotsOnly : Obligations.SamplesDependOnTheSlotsOnly :=
  fun _ _ _ _ _ h h' hcur hnext hst hst' => run_congr h h' hcur hnext hst hst'

end Sys2Proof.Claims
end

section
/-! SUPPORT. The sample function: QSIN's laws, the notch, the phase (42_synthesizer.md rules R160 to R167). -/

namespace Sys2Proof.Machine

open Real

/-! ### QSIN -/

/-- At phase 0 and at half a turn the tone is 0, exactly (rule R165 (c)). -/
theorem qsin_eq_zero {m sr : Nat} (h : m = 0 ∨ 2 * m = sr) : qsin m sr = 0 := by
  have he : exactTwiceSine m sr = some 0 := by
    rcases h with rfl | rfl
    · simp [exactTwiceSine, twiceSineAt]
    · rcases Nat.eq_zero_or_pos m with rfl | hm
      · rfl
      · have h12 : 12 * m = 6 * (2 * m) := by omega
        rw [exactTwiceSine, h12, Nat.mul_mod_left, Nat.mul_div_cancel _ (by omega)]
        rfl
  rw [qsin, he]
  simp

/-- The phase SR - m is m's, mirrored. -/
theorem realTone_mirror {m sr : Nat} (h : m < sr) : realTone (sr - m) sr = -realTone m sr := by
  have hsr : (sr : ℝ) ≠ 0 := by exact_mod_cast (Nat.zero_le m).trans_lt h |>.ne'
  have hangle : 2 * π * ((sr - m : Nat) : ℝ) / sr = 2 * π - 2 * π * m / sr := by
    rw [Nat.cast_sub h.le]
    field_simp
  rw [realTone, realTone, hangle, sin_two_pi_sub]
  ring

/-- A ceiling is the floor at an integer, and one above it elsewhere. -/
theorem ceil_sub_floor (x : ℝ) :
    (⌈x⌉ - ⌊x⌋ = 0 ∨ ⌈x⌉ - ⌊x⌋ = 1) ∧ (⌈x⌉ - ⌊x⌋ = 0 ↔ ∃ z : Int, x = z) := by
  have hle := Int.floor_le_ceil x
  have hle' := Int.ceil_le_floor_add_one x
  refine ⟨by omega, fun h => ⟨⌊x⌋, le_antisymm ?_ (Int.floor_le x)⟩, ?_⟩
  · rw [← sub_eq_zero.1 h]
    exact Int.le_ceil x
  · rintro ⟨z, rfl⟩
    simp

/-- Rule R165 (d): QSIN mirrored is the ceiling with the other sign. -/
theorem qsin_mirror {m sr : Nat} (h0 : 0 < m) (h : m < sr) (hsr : sr < 2 ^ 32) :
    qsin (sr - m) sr = -qsin m sr - (⌈realTone m sr⌉ - ⌊realTone m sr⌋) := by
  rw [qsin_eq_floor (by omega) hsr, qsin_eq_floor h hsr, realTone_mirror h, Int.floor_neg]
  ring

/-! ### The notch -/

/-- The first ceil(k·SR/10) samples of a second are the silent ones (rule R164). -/
theorem silent_iff (sym : Symbol) (i sr : Nat) :
    silent sym i sr ↔ i < (sym.silentTenths * sr + 9) / 10 := by
  unfold silent
  omega

theorem sampleCode_silent {sym : Symbol} {i sr : Nat} (h : silent sym i sr) : sampleCode sym i sr = 0 := if_pos h

theorem sampleCode_tone {sym : Symbol} {i sr : Nat} (h : ¬ silent sym i sr) :
    sampleCode sym i sr = qsin (phase i sr) sr := if_neg h

theorem wave_getElem? (sym : Symbol) {sr : Word32} {i : Nat} (h : i < sr.toNat) :
    (wave sym sr)[i]? = some (sampleAt sym i sr) := by
  simp [wave, h]

/-! ### The phase -/

theorem phase_zero (sr : Nat) : phase 0 sr = 0 := Nat.zero_mod sr

theorem phase_second (sr : Nat) : phase sr sr = 0 := Nat.mul_mod_left _ _

theorem phase_succ (i sr : Nat) : phase (i + 1) sr = (phase i sr + Config.carrierHz) % sr := by
  rw [phase, phase, Nat.mul_succ, Nat.mod_add_mod]

/-- Where SR divides twice the carrier the phase is 0 or half a turn (rule R167). -/
theorem phase_of_dvd {sr : Nat} (h : sr ∣ 2 * Config.carrierHz) (i : Nat) :
    phase i sr = 0 ∨ 2 * phase i sr = sr := by
  have hpos : 0 < sr := Nat.pos_of_dvd_of_pos h (by decide)
  have hlt : phase i sr < sr := Nat.mod_lt _ hpos
  have hdvd : sr ∣ 2 * phase i sr := by
    rw [Nat.dvd_iff_mod_eq_zero, phase, Nat.mul_mod_mod, ← Nat.mul_assoc]
    exact Nat.mod_eq_zero_of_dvd (h.mul_right i)
  obtain ⟨k, hk⟩ := hdvd
  have hk2 : k < 2 := by
    by_contra hge
    have := Nat.mul_le_mul_left sr (Nat.not_lt.1 hge)
    omega
  interval_cases k <;> omega

end Sys2Proof.Machine

namespace Sys2Proof.Claims
open Sys2Proof.Machine

/-- Settles O32: the three stages of `qsin` together, and the definition of a sample's value. -/
theorem qsinIsTheFloorOfTheRealSine : Obligations.QsinIsTheFloorOfTheRealSine :=
  ⟨fun _ _ _ hsr hm => qsin_eq_floor hm hsr, fun _ => rfl⟩

/-- Settles O33: c is the ceiling of the real value less its floor. -/
theorem qsinRangeAndAntisymmetry : Obligations.QsinRangeAndAntisymmetry := by
  intro m sr _ hsr hm
  obtain ⟨hlo, hhi⟩ := qsin_range hm hsr
  obtain ⟨hc, hint⟩ := ceil_sub_floor (realTone m sr)
  exact ⟨by omega, by omega, qsin_eq_zero (.inl rfl), fun h0 => ⟨_, qsin_mirror h0 hm hsr, hc, hint⟩⟩

/-- Settles O35: the notch ends at the first sample that is not silent. -/
theorem secondsBeginWithTheirNotch : Obligations.SecondsBeginWithTheirNotch := by
  refine fun sym sr => ⟨wave_length sym sr, fun i hi =>
    ⟨sampleAt sym i sr, wave_getElem? sym hi, rfl, fun h => ?_, fun h => ?_⟩⟩
  · have hsilent : silent sym i sr.toNat := (silent_iff sym i _).2 h
    rw [sampleAt, sampleCode_silent hsilent]
    rfl
  · have htone : ¬ silent sym i sr.toNat := fun hs => absurd ((silent_iff sym i _).1 hs) (Nat.not_lt.2 h)
    rw [sampleAt, sampleCode_tone htone]
    rfl

/-- Settles O36, by the arithmetic of remainders. -/
theorem phaseIsContinuous : Obligations.PhaseIsContinuous :=
  fun sr _ => ⟨phase_zero sr, phase_second sr, fun i => phase_succ i sr⟩

/-- Settles O37: every phase is 0 or half a turn, where the tone is 0. -/
theorem ratesThatDivideTheCarrierAreSilent : Obligations.RatesThatDivideTheCarrierAreSilent := by
  intro sym sr h x hx
  obtain ⟨i, -, rfl⟩ := List.mem_map.1 hx
  have hcode : sampleCode sym i sr.toNat = 0 := by
    by_cases hs : silent sym i sr.toNat
    · exact sampleCode_silent hs
    · rw [sampleCode_tone hs, qsin_eq_zero (phase_of_dvd h i)]
  rw [sampleAt, hcode]
  rfl

end Sys2Proof.Claims
end

section
/-! SUPPORT. SYNS, SYNM and ABORT, case by case (42_synthesizer.md rules R170, R171, R173). -/

namespace Sys2Proof.Machine

theorem rateLegal_iff (sr : Word32) : rateLegal sr ↔ sr.toNat ≠ 0 :=
  not_congr ⟨fun h => congrArg BitVec.toNat h, fun h => BitVec.eq_of_toNat_eq h⟩

theorem symOf_isSome : ∀ sym : BitVec 2, sym ≠ 3 → (symOf sym).isSome = true := by decide

/-- `accept` is that of rule R170. -/
theorem accept_accepted (e : Slot) (w : Word64) (s : State) :
    Claims.Accepted e w s (.next (accept e w s)) := by
  rcases accept_cases e w s with ⟨hc, h⟩ | ⟨hc, hn, h⟩ | ⟨hc, hn, h⟩ <;> rw [h]
  · exact ⟨fun _ => rfl, fun hc' => absurd hc hc', fun hc' => absurd hc hc'⟩
  · exact ⟨fun hc' => absurd hc' hc, fun _ _ => rfl, fun _ hn' => absurd hn hn'⟩
  · exact ⟨fun hc' => absurd hc' hc, fun _ hn' => absurd hn' hn, fun _ _ => rfl⟩

/-! ### SYNS -/

theorem exec_syns_legal {sym : BitVec 2} {y : Symbol} {sr : Word32} {s : State} (hs : s.fault = false)
    (hy : symOf sym = some y) (hr : rateLegal sr) :
    exec (.syns sym sr) s = .next (accept (symbolSlot y sr) (encode (.syns sym sr)) s) := by
  rw [exec, execSyns, gated_open _ hs]
  simp only [hy, if_pos hr]

theorem exec_syns_illegal_rate {sym : BitVec 2} {y : Symbol} {sr : Word32} {s : State} (hs : s.fault = false)
    (hy : symOf sym = some y) (hr : ¬ rateLegal sr) :
    exec (.syns sym sr) s = .next (raiseFault .range (encode (.syns sym sr)) s) := by
  rw [exec, execSyns, gated_open _ hs]
  simp only [hy, if_neg hr]

/-! ### SYNM -/

theorem exec_synm_legal {start : BitVec 6} {sr : Word32} {s : State} (hs : s.fault = false)
    (hstart : startLegal start) (hr : rateLegal sr) (hf : s.frameValid = true) :
    exec (.synm start sr) s = .next (accept (minuteSlot s.frame start sr) (encode (.synm start sr)) s) := by
  rw [exec, execSynm, gated_open _ hs, if_neg (not_not_intro ⟨hstart, hr⟩), if_neg (not_not_intro hf)]

theorem exec_synm_range {start : BitVec 6} {sr : Word32} {s : State} (hs : s.fault = false)
    (h : ¬ (startLegal start ∧ rateLegal sr)) :
    exec (.synm start sr) s = .next (raiseFault .range (encode (.synm start sr)) s) := by
  rw [exec, execSynm, gated_open _ hs, if_pos h]

theorem exec_synm_no_frame {start : BitVec 6} {sr : Word32} {s : State} (hs : s.fault = false)
    (hstart : startLegal start) (hr : rateLegal sr) (hf : s.frameValid = false) :
    exec (.synm start sr) s = .next (raiseFault .noFrame (encode (.synm start sr)) s) := by
  rw [exec, execSynm, gated_open _ hs, if_neg (not_not_intro ⟨hstart, hr⟩), if_pos (by simp [hf])]

/-! ### ABORT -/

theorem exec_abort {s : State} (hs : s.fault = false) : exec .abort s = .next (emptySlots s) := by
  rw [exec, execAbort, gated_open _ hs]

end Sys2Proof.Machine

namespace Sys2Proof.Claims
open Sys2Proof.Machine

/-- Settles O38: with a symbol the rate is checked, then the record is accepted. -/
theorem synsQueuesOneSecond : Obligations.SynsQueuesOneSecond := by
  refine ⟨fun sym sr y s hs hr hy => ?_, fun sym sr s hs hsym hr => ?_,
    fun w hop hres => Illegal.raises (by simpa [Illegal, hop] using hres)⟩
  · have hy : symOf sym = some y := by rcases hy with ⟨rfl, rfl⟩ | ⟨rfl, rfl⟩ | ⟨rfl, rfl⟩ <;> rfl
    rw [exec_syns_legal hs hy ((rateLegal_iff sr).2 hr)]
    exact accept_accepted _ _ s
  · obtain ⟨y, hy⟩ := Option.isSome_iff_exists.1 (symOf_isSome sym hsym)
    exact exec_syns_illegal_rate hs hy fun h => (rateLegal_iff sr).1 h hr

/-- Settles O39: RANGE is checked first, then NO_FRAME, then the record with the frame's symbols is accepted. -/
theorem synmQueuesTheMinute : Obligations.SynmQueuesTheMinute := by
  refine ⟨fun start sr s hs hstart hr hf => ⟨minuteSlot s.frame start sr, ?_, rfl, rfl,
    frameSymbols_length s.frame start.toNat, fun j hj => frameSymbols_getElem? s.frame hj⟩,
    fun start sr s hs h => exec_synm_range hs fun ⟨hstart, hr⟩ => ?_,
    fun start sr s hs hstart hr hf => exec_synm_no_frame hs hstart ((rateLegal_iff sr).2 hr) hf,
    fun w hop hres => Illegal.raises (by simpa [Illegal, hop] using hres)⟩
  · rw [exec_synm_legal hs hstart ((rateLegal_iff sr).2 hr) hf]
    exact accept_accepted _ _ s
  · have hle : start.toNat ≤ 59 := hstart
    have hne := (rateLegal_iff sr).1 hr
    omega

/-- Settles O40: SYN has nothing to do once CUR is empty. -/
theorem abortEmptiesBothSlots : Obligations.AbortEmptiesBothSlots := by
  refine ⟨fun s hs => exec_abort hs, fun s t u hs ht hu => ?_,
    fun w hop hres => Illegal.raises (by simpa [Illegal, hop] using hres)⟩
  obtain rfl : emptySlots s = t := Host.Outcome.next.inj ((exec_abort hs).symm.trans ht)
  obtain rfl : emptySlots s = u := Host.Outcome.next.inj ((synTurn_idle (emptySlots_cur s)).symm.trans hu)
  rfl

end Sys2Proof.Claims
end

section
/-! SUPPORT. The turns of the host that issue and read, NOP, and the lines of the assembler (43_control.md rules
R211 to R213, R215). -/

namespace Sys2Proof.Machine

/-! ### Issues and reads -/

/-- The issue of a command's word runs the command, which a faulted block discards too (rules R212, R236). -/
theorem step_issue_command {s : State} {w : Word64} {i : Instr} {rest : List Turn}
    (hs : s.schedule = .issue w :: rest) (hd : decode w = some i) :
    step s = exec i (tick (popTurn rest s)) := by
  rw [step_turn hs]
  cases hf : s.fault with
  | false => simp [perform, issue, hf, hd]
  | true => simp [perform, issue, hf, exec_discarded i]

theorem exec_nop (s : State) : exec .nop s = .next s := by
  cases hf : s.fault with
  | false => exact gated_open id hf
  | true => exact exec_discarded .nop hf

theorem readValue_unimplemented {n : Nat} (hn : 5 ≤ n) (s : State) :
    readValue n s = .word64 (Config.unimplementedRead n s.epoch s.reads) := by
  obtain ⟨m, rfl⟩ := Nat.exists_eq_add_of_le' hn
  rfl

namespace Asm

/-! ### Operands as fields -/

theorem fit_of_lt {n v : Nat} (h : v < 2 ^ n) : fit n v = some (BitVec.ofNatLT v h) :=
  (if_pos h).trans (congrArg some (BitVec.ofNatLT_eq_ofNat h).symm)

theorem fit_too_wide {n v : Nat} (h : 2 ^ n ≤ v) : fit n v = none := if_neg (Nat.not_lt.2 h)

theorem fit_eq_some_iff {n v : Nat} {b : BitVec n} : fit n v = some b ↔ b.toNat = v := by
  constructor
  · intro h
    have hv : v < 2 ^ n := Nat.not_le.1 fun hle => by simp [fit_too_wide hle] at h
    obtain rfl := Option.some.inj ((fit_of_lt hv).symm.trans h)
    rfl
  · rintro rfl
    exact fit_of_lt b.isLt

theorem Time.operands_eq_some_iff {t : Time} {o : CivilTime} :
    t.operands = some o ↔ o.min.toNat = t.min ∧ o.hour.toNat = t.hour ∧ o.day.toNat = t.day ∧
      o.wday.toNat = t.wday ∧ o.mon.toNat = t.mon ∧ o.year.toNat = t.year ∧ o.dst.toNat = t.dst := by
  cases o
  simp [Time.operands, Option.bind_eq_some_iff, fit_eq_some_iff]

/-! ### The command of a line -/

/-- The command of a line is the one that holds the operands written (rule R215): `fit` gives the field of each
number, and what is left is the order of the conjuncts. -/
theorem Line.command_eq_some_iff (l : Line) (i : Instr) :
    l.command = some i ↔ Claims.HoldsOperands l (some i) := by
  cases l with
  | nop | abort => simp [Line.command, Claims.HoldsOperands, eq_comm]
  | word64 | read | reset | run => simp [Line.command, Claims.HoldsOperands]
  | encode t =>
    simp only [Line.command, Claims.HoldsOperands, Option.bind_eq_bind, Option.bind_eq_some_iff,
      Time.operands_eq_some_iff]
    grind
  | parity | bcd | synm | ldfr =>
    simp only [Line.command, Claims.HoldsOperands, Option.bind_eq_bind, Option.bind_eq_some_iff,
      fit_eq_some_iff]
    grind
  | syns y sr =>
    simp only [Line.command, Claims.HoldsOperands, Option.bind_eq_bind, Option.bind_eq_some_iff,
      fit_eq_some_iff]
    cases y <;> grind [symCode]

/-- The operands a command holds fit the widths of its fields. -/
theorem Line.operands_fit {l : Line} {i : Instr} (h : l.command = some i) :
    ∀ p ∈ Claims.operandWidths l, p.2 < 2 ^ p.1 := by
  rw [Line.command_eq_some_iff] at h
  cases l with
  | nop | abort | read | reset | run => exact nofun
  | word64 => cases h
  | encode t =>
    obtain ⟨o, -, hmin, hhour, hday, hwday, hmon, hyear, hdst⟩ := h
    simp only [Claims.operandWidths, List.forall_mem_cons]
    exact ⟨hmin ▸ o.min.isLt, hhour ▸ o.hour.isLt, hday ▸ o.day.isLt, hwday ▸ o.wday.isLt,
      hmon ▸ o.mon.isLt, hyear ▸ o.year.isLt, hdst ▸ o.dst.isLt, nofun⟩
  | parity | bcd | synm =>
    obtain ⟨a, b, -, rfl, rfl⟩ := h
    exact List.forall_mem_cons.2 ⟨a.isLt, List.forall_mem_singleton.2 b.isLt⟩
  | syns =>
    obtain ⟨n, r, -, rfl, -⟩ := h
    exact List.forall_mem_singleton.2 r.isLt
  | ldfr =>
    obtain ⟨f, -, rfl⟩ := h
    exact List.forall_mem_singleton.2 f.isLt

/-! ### Well-formed commands and lines -/

theorem symWellFormed_symCode (y : Symbol) : symWellFormed (symCode y) := by cases y <;> decide

/-- The symbols give every SYM but 3 (rules R76, R80). -/
theorem symCode_cases : ∀ sym : BitVec 2, symWellFormed sym →
    symCode .zero = sym ∨ symCode .one = sym ∨ symCode .term = sym := by decide

theorem exists_symCode_eq {sym : BitVec 2} (h : symWellFormed sym) : ∃ y, symCode y = sym := by
  rcases symCode_cases sym h with h | h | h <;> exact ⟨_, h⟩

theorem Line.wellFormed_of_command {l : Line} {i : Instr} (h : l.command = some i) : i.wellFormed = true := by
  rw [Line.command_eq_some_iff] at h
  cases l with
  | nop | abort => cases h; rfl
  | word64 | read | reset | run => cases h
  | encode | ldfr => obtain ⟨a, ⟨⟩, -⟩ := h; rfl
  | parity | bcd | synm => obtain ⟨a, b, ⟨⟩, -⟩ := h; rfl
  | syns y => obtain ⟨n, r, ⟨⟩, -, rfl⟩ := h; exact decide_eq_true (symWellFormed_symCode y)

/-- The line of a command writes the operands the command holds. -/
theorem exists_line_of_wellFormed {i : Instr} (h : i.wellFormed = true) : ∃ l : Line, l.command = some i := by
  simp only [Line.command_eq_some_iff]
  cases i with
  | nop => exact ⟨.nop, rfl⟩
  | abort => exact ⟨.abort, rfl⟩
  | encode o =>
    exact ⟨.encode ⟨o.min.toNat, o.hour.toNat, o.day.toNat, o.wday.toNat, o.mon.toNat, o.year.toNat,
      o.dst.toNat⟩, o, rfl, rfl, rfl, rfl, rfl, rfl, rfl, rfl⟩
  | parity len data => exact ⟨.parity len.toNat data.toNat, len, data, rfl, rfl, rfl⟩
  | bcd w val => exact ⟨.bcd w.toNat val.toNat, w, val, rfl, rfl, rfl⟩
  | syns sym sr =>
    obtain ⟨y, rfl⟩ := exists_symCode_eq (of_decide_eq_true h)
    exact ⟨.syns y sr.toNat, _, sr, rfl, rfl, rfl⟩
  | synm start sr => exact ⟨.synm start.toNat sr.toNat, start, sr, rfl, rfl, rfl⟩
  | ldfr fr => exact ⟨.ldfr fr.toNat, fr, rfl, rfl⟩

/-! ### Operands that fit -/

theorem Line.holdsOperands_command {l : Line} {i : Instr} (h : Claims.HoldsOperands l (some i)) :
    Claims.HoldsOperands l l.command := by
  rwa [(Line.command_eq_some_iff l i).2 h]

/-- Numbers that fit are the values of the fields of a command. -/
theorem Line.holdsOperands_of_fit {l : Line} (h : ∀ p ∈ Claims.operandWidths l, p.2 < 2 ^ p.1) :
    Claims.HoldsOperands l l.command := by
  cases l with
  | nop | abort | word64 | read | reset | run => rfl
  | encode t =>
    simp only [Claims.operandWidths, List.forall_mem_cons] at h
    obtain ⟨hmin, hhour, hday, hwday, hmon, hyear, hdst, -⟩ := h
    exact Line.holdsOperands_command ⟨⟨.ofNatLT t.min hmin, .ofNatLT t.hour hhour, .ofNatLT t.day hday,
      .ofNatLT t.wday hwday, .ofNatLT t.mon hmon, .ofNatLT t.year hyear, .ofNatLT t.dst hdst⟩,
      rfl, rfl, rfl, rfl, rfl, rfl, rfl, rfl⟩
  | parity a b | bcd a b | synm a b =>
    simp only [Claims.operandWidths, List.forall_mem_cons] at h
    obtain ⟨ha, hb, -⟩ := h
    exact Line.holdsOperands_command ⟨.ofNatLT a ha, .ofNatLT b hb, rfl, rfl, rfl⟩
  | syns y sr =>
    simp only [Claims.operandWidths, List.forall_mem_singleton] at h
    exact Line.holdsOperands_command ⟨_, .ofNatLT sr h, rfl, rfl, rfl⟩
  | ldfr frame =>
    simp only [Claims.operandWidths, List.forall_mem_singleton] at h
    exact Line.holdsOperands_command ⟨.ofNatLT frame h, rfl, rfl⟩

/-! ### The word and the turns of a line -/

theorem Line.word_of_command {l : Line} {i : Instr} (h : l.command = some i) :
    l.word = some (Sys2Proof.encode i) := by
  cases l with
  | word64 => cases h
  | _ => exact congrArg (Option.map Sys2Proof.encode) h

theorem Line.word_too_wide {l : Line} {p : Nat × Nat} (hp : p ∈ Claims.operandWidths l) (h : 2 ^ p.1 ≤ p.2) :
    l.word = none := by
  have hcommand : l.command = none := Option.eq_none_iff_forall_ne_some.2 fun i hi =>
    Nat.not_lt.2 h (Line.operands_fit hi p hp)
  cases l with
  | word64 v =>
    obtain rfl : p = (64, v) := List.mem_singleton.1 hp
    exact fit_too_wide h
  | _ => exact congrArg (Option.map Sys2Proof.encode) hcommand

/-- A line with a word is issued as one turn. -/
theorem Line.turns_of_word {l : Line} {w : Word64} (h : l.word = some w) : l.turns = some [.issue w] := by
  cases l with
  | read | reset | run => cases h
  | _ => exact congrArg (Option.map fun w => [Turn.issue w]) h

/-- A line with operands of a word, but with no word, has no turn. -/
theorem Line.turns_eq_none {l : Line} {p : Nat × Nat} (hp : p ∈ Claims.operandWidths l) (h : l.word = none) :
    l.turns = none := by
  cases l with
  | nop | abort | read | reset | run => cases hp
  | _ => exact congrArg (Option.map fun w => [Turn.issue w]) h

end Asm
end Sys2Proof.Machine

namespace Sys2Proof.Claims
open Sys2Proof.Machine

/-- Settles O48: a line's command is the one that holds the operands written, so it has one iff they fit, and
the line's word is that command's. -/
theorem assembledWordsDecode : Obligations.AssembledWordsDecode := by
  refine ⟨fun l i hl => ?_, fun l ⟨p, hp, hle⟩ => ?_, fun l hfit => Asm.Line.holdsOperands_of_fit hfit,
    fun v hv => ⟨.ofNatLT v hv, Asm.fit_of_lt hv, rfl, Asm.Line.turns_of_word (Asm.fit_of_lt hv)⟩,
    fun n v => ⟨Asm.fit_too_wide, fun hv => ⟨.ofNatLT v hv, Asm.fit_of_lt hv, rfl⟩⟩,
    fun n => ⟨rfl, rfl, rfl⟩, fun i hwf => Asm.exists_line_of_wellFormed hwf⟩
  · obtain ⟨hdecode, -⟩ := decodeAndEncodeAgree
    have hw := Asm.Line.word_of_command hl
    exact ⟨encode i, hw, Asm.Line.turns_of_word hw, hdecode i (Asm.Line.wellFormed_of_command hl)⟩
  · have hw := Asm.Line.word_too_wide hp hle
    exact ⟨hw, Asm.Line.turns_eq_none hp hw⟩

/-- Settles O5: an issue of the command's word runs it, and `withFetchWord` puts such an issue first. -/
theorem stepRunsTheIssuedCommand : Obligations.StepRunsTheIssuedCommand :=
  ⟨fun _ _ _ _ hs hd => step_issue_command hs hd,
   fun s nbits w _ hd => step_issue_command (s := s.withFetchWord nbits w) rfl hd⟩

/-- Settles O12: no effect is the identity too, and the words of OP = 0 have one reserved field. -/
theorem nopChangesNothing : Obligations.NopChangesNothing :=
  ⟨exec_nop, fun w hop hres => Illegal.raises (by simpa [Illegal, hop] using hres)⟩

/-- Settles O27: the read answers `readValue`, register by register. -/
theorem readsAnswerTheRegisters : Obligations.ReadsAnswerTheRegisters := by
  intro s n rest hs
  refine ⟨readValue n s, (hostRead n s).reads, step_read hs, ?_, ?_, ?_, ?_, ?_,
    fun hn => ⟨_, readValue_unimplemented hn s⟩⟩
  · rintro rfl; rfl
  · rintro rfl; exact ⟨_, rfl, fun hv => if_pos hv⟩
  · rintro rfl; exact ⟨_, rfl, fun hv => if_pos hv⟩
  · rintro rfl; rfl
  · rintro rfl; rfl

end Sys2Proof.Claims
end

section
/-! SUPPORT. The fault conditions of each command, the fault an issue takes, and what a faulted block keeps
(60_exceptions.md rules R235 to R237). -/

namespace Sys2Proof.Claims
open Sys2Proof.Machine

/-! ### The fault conditions of a command, in the terms of the model's checks -/

theorem not_meets_none (w : Word64) (s : State) : ¬ Meets w s .none := id

theorem not_illegal_of_decode {w : Word64} {i : Instr} (hd : decode w = some i) : ¬ Illegal w := by
  rw [← decode_eq_none_iff, hd]
  exact Option.some_ne_none i

section Conditions
variable {w : Word64} (s : State)

/-- NOP, ABORT and LDFR check nothing. -/
theorem not_meets_unchecked {i : Instr} (hd : decode w = some i)
    (hi : i = .nop ∨ i = .abort ∨ ∃ fr, i = .ldfr fr) (c : Cause) : ¬ Meets w s c := by
  have hlegal := not_illegal_of_decode hd
  rcases hi with rfl | rfl | ⟨fr, rfl⟩ <;> cases c <;> simp [Meets, hd, hlegal]

theorem meets_encode_iff {t : CivilTime} (hd : decode w = some (.encode t)) (c : Cause) :
    Meets w s c ↔ c = .range ∧ ¬ InRange t := by
  cases c <;> simp [Meets, hd, not_illegal_of_decode hd]

theorem meets_parity_iff {len : BitVec 6} {data : BitVec 48} (hd : decode w = some (.parity len data))
    (c : Cause) : Meets w s c ↔ c = .illegalOperand ∧ ¬ lengthLegal len := by
  cases c <;> simp [Meets, hd, not_illegal_of_decode hd, Config.parityMaxLen]

theorem meets_bcd_iff {n : BitVec 4} {v : BitVec 8} (hd : decode w = some (.bcd n v)) (c : Cause) :
    Meets w s c ↔ (c = .illegalOperand ∧ ¬ widthLegal n) ∨ (c = .range ∧ ¬ fits v.toNat n.toNat) := by
  have hwidth : ¬ widthLegal n ↔ n.toNat = 0 ∨ 8 < n.toNat := by
    simp only [widthLegal, Config.bcdMaxWidth]
    omega
  rw [hwidth]
  cases c <;> simp [Meets, hd, not_illegal_of_decode hd]

theorem meets_syns_iff {sym : BitVec 2} {sr : Word32} (hd : decode w = some (.syns sym sr)) (c : Cause) :
    Meets w s c ↔ (c = .range ∧ ¬ rateLegal sr) ∨ (c = .overrun ∧ s.cur ≠ none ∧ s.next ≠ none) := by
  rw [rateLegal_iff]
  cases c <;> simp [Meets, hd, not_illegal_of_decode hd]

theorem meets_synm_iff {start : BitVec 6} {sr : Word32} (hd : decode w = some (.synm start sr)) (c : Cause) :
    Meets w s c ↔ (c = .range ∧ ¬ (startLegal start ∧ rateLegal sr)) ∨
      (c = .noFrame ∧ s.frameValid = false) ∨ (c = .overrun ∧ s.cur ≠ none ∧ s.next ≠ none) := by
  have hrange : ¬ (startLegal start ∧ rateLegal sr) ↔ 59 < start.toNat ∨ sr.toNat = 0 := by
    have hstart : startLegal start ↔ start.toNat ≤ 59 := Iff.rfl
    rw [rateLegal_iff, hstart]
    omega
  rw [hrange]
  cases c <;> simp [Meets, hd, not_illegal_of_decode hd]

end Conditions

/-! ### The fault an issue takes -/

/-- What rule R237 lets the issue of `w` answer in an unfaulted state: no fault if no condition is met, else
fault entry (rule R235) with a condition that is met, of the smallest code. -/
inductive Verdict (w : Word64) (s : State) : State → Prop where
  | clean {t : State} (ht : t.fault = false) (h : ∀ c, ¬ Meets w s c) : Verdict w s t
  | faults {c : Cause} (hc : Meets w s c) (hmin : ∀ d, Meets w s d → c.code.toNat ≤ d.code.toNat) :
      Verdict w s (raiseFault c w s)

/-- No condition has a smaller code than ILLEGAL_CMD. -/
theorem verdict_illegal {w : Word64} {s : State} (h : Illegal w) : Verdict w s (raiseFault .illegalCmd w s) := by
  refine .faults h fun d hd => ?_
  cases d with
  | none => exact absurd hd (not_meets_none w s)
  | _ => decide

/-- `accept` meets rule R237 once OVERRUN is the only condition left. -/
theorem verdict_accept {w : Word64} {s : State} (e : Slot) (hs : s.fault = false)
    (hmeets : ∀ c, Meets w s c ↔ c = .overrun ∧ s.cur ≠ none ∧ s.next ≠ none) :
    Verdict w s (accept e w s) := by
  rcases accept_cases e w s with ⟨hc, h⟩ | ⟨-, hn, h⟩ | ⟨hc, hn, h⟩ <;> rw [h]
  · exact .clean hs fun c hm => ((hmeets c).1 hm).2.1 hc
  · exact .clean hs fun c hm => ((hmeets c).1 hm).2.2 hn
  · exact .faults ((hmeets _).2 ⟨rfl, hc, hn⟩) fun d hm => by rw [((hmeets d).1 hm).1]

/-- Each command checks its conditions in the order of their codes. -/
theorem exec_verdict {i : Instr} {s : State} (hs : s.fault = false) (hd : decode (encode i) = some i) :
    ∃ t, exec i s = .next t ∧ Verdict (encode i) s t := by
  cases i with
  | nop => exact ⟨_, exec_nop s, .clean hs (not_meets_unchecked s hd (.inl rfl))⟩
  | encode t =>
    have hmeets := meets_encode_iff s hd
    by_cases h : InRange t
    · exact ⟨_, exec_encode_inRange hs h, .clean hs (by simp [hmeets, h])⟩
    · exact ⟨_, exec_encode_outOfRange hs h, .faults ((hmeets _).2 ⟨rfl, h⟩) (by simp [hmeets])⟩
  | parity len data =>
    have hmeets := meets_parity_iff s hd
    by_cases h : lengthLegal len
    · exact ⟨_, exec_parity_legal data hs h, .clean hs fun c hm => ((hmeets c).1 hm).2 h⟩
    · exact ⟨_, exec_parity_illegal_length data hs h, .faults ((hmeets _).2 ⟨rfl, h⟩) (by simp [hmeets])⟩
  | bcd n v =>
    have hmeets := meets_bcd_iff s hd
    by_cases hn : widthLegal n
    · by_cases h : fits v.toNat n.toNat
      · exact ⟨_, exec_bcd_fits hs hn h, .clean hs fun c hm => ((hmeets c).1 hm).elim (·.2 hn) (·.2 h)⟩
      · refine ⟨_, exec_bcd_not_fits hs hn h, .faults ((hmeets _).2 (.inr ⟨rfl, h⟩)) fun d hm => ?_⟩
        rcases (hmeets d).1 hm with ⟨-, hn'⟩ | ⟨rfl, -⟩
        · exact absurd hn hn'
        · decide
    · refine ⟨_, exec_bcd_illegal_width hs hn, .faults ((hmeets _).2 (.inl ⟨rfl, hn⟩)) fun d hm => ?_⟩
      rcases (hmeets d).1 hm with ⟨rfl, -⟩ | ⟨rfl, -⟩ <;> decide
  | syns sym sr =>
    have hmeets := meets_syns_iff s hd
    obtain ⟨hwf, -⟩ := (decode_eq_some_iff _ _).1 hd
    obtain ⟨y, hy⟩ := Option.isSome_iff_exists.1 (symOf_isSome sym (of_decide_eq_true hwf))
    by_cases hr : rateLegal sr
    · exact ⟨_, exec_syns_legal hs hy hr,
        verdict_accept _ hs fun c => (hmeets c).trans (or_iff_right (·.2 hr))⟩
    · refine ⟨_, exec_syns_illegal_rate hs hy hr, .faults ((hmeets _).2 (.inl ⟨rfl, hr⟩)) fun d hm => ?_⟩
      rcases (hmeets d).1 hm with ⟨rfl, -⟩ | ⟨rfl, -⟩ <;> decide
  | synm start sr =>
    have hmeets := meets_synm_iff s hd
    by_cases hr : startLegal start ∧ rateLegal sr
    · obtain ⟨hstart, hrate⟩ := hr
      cases hf : s.frameValid with
      | true =>
        refine ⟨_, exec_synm_legal hs hstart hrate hf, verdict_accept _ hs fun c => ?_⟩
        rw [hmeets, or_iff_right (·.2 ⟨hstart, hrate⟩), or_iff_right (by simp [hf])]
      | false =>
        refine ⟨_, exec_synm_no_frame hs hstart hrate hf, .faults ((hmeets _).2 (.inr (.inl ⟨rfl, hf⟩)))
          fun d hm => ?_⟩
        rcases (hmeets d).1 hm with ⟨-, hr'⟩ | ⟨rfl, -⟩ | ⟨rfl, -⟩
        · exact absurd ⟨hstart, hrate⟩ hr'
        · decide
        · decide
    · refine ⟨_, exec_synm_range hs hr, .faults ((hmeets _).2 (.inl ⟨rfl, hr⟩)) fun d hm => ?_⟩
      rcases (hmeets d).1 hm with ⟨rfl, -⟩ | ⟨rfl, -⟩ | ⟨rfl, -⟩ <;> decide
  | abort => exact ⟨_, exec_abort hs, .clean hs (not_meets_unchecked s hd (.inr (.inl rfl)))⟩
  | ldfr fr => exact ⟨_, exec_ldfr fr hs, .clean hs (not_meets_unchecked s hd (.inr (.inr ⟨fr, rfl⟩)))⟩

/-- The conditions are those of the block's registers, which taking the turn leaves as they are. -/
theorem meets_taken_iff (w : Word64) (rest : List Turn) (s : State) (c : Cause) :
    Meets w (taken rest s) c ↔ Meets w s c := by
  cases c <;> rfl

/-- The issue of a word to an unfaulted block answers by rule R237. -/
theorem step_issue_verdict {s t : State} {w : Word64} {rest : List Turn} (hf : s.fault = false)
    (hs : s.schedule = .issue w :: rest) (hst : step s = .next t) : Verdict w (taken rest s) t := by
  cases hd : decode w with
  | none =>
    obtain rfl := Host.Outcome.next.inj ((step_issue_illegal hf hs hd).symm.trans hst)
    exact verdict_illegal ((decode_eq_none_iff w).1 hd)
  | some i =>
    obtain ⟨-, hencode⟩ := decodeAndEncodeAgree
    obtain ⟨-, rfl⟩ := hencode w i hd
    obtain ⟨u, hu, hverdict⟩ := exec_verdict (s := taken rest s) hf hd
    obtain rfl := Host.Outcome.next.inj (hu.symm.trans ((step_issue_command hs hd).symm.trans hst))
    exact hverdict

end Sys2Proof.Claims

namespace Sys2Proof.Machine

/-! ### A faulted block -/

theorem step_issue_discarded {s : State} {w : Word64} {rest : List Turn} (hf : s.fault = true)
    (hs : s.schedule = .issue w :: rest) : step s = .next (tick (popTurn rest s)) := by
  rw [step_turn hs]
  exact if_pos hf

/-- A faulted block plays nothing (rule R22). -/
theorem State.Inv.cur_of_fault {s : State} (h : s.Inv) (hf : s.fault = true) : s.cur = none := by
  obtain ⟨hcur, -⟩ := h.faultedIsQuiet hf
  simpa [State.curBusy] using hcur

theorem SynEffect.cause_fcmd_eq {s t : State} (e : SynEffect s t) : t.cause = s.cause ∧ t.fcmd = s.fcmd := by
  cases e with
  | idle => exact ⟨rfl, rfl⟩
  | sample => rw [advance_frame]; exact ⟨rfl, rfl⟩

theorem hostConsume_cause_fcmd (s : State) : (hostConsume s).cause = s.cause ∧ (hostConsume s).fcmd = s.fcmd := by
  rcases hostConsume_cases s with ⟨-, e⟩ | ⟨_, -, e⟩ <;> rw [e] <;> exact ⟨rfl, rfl⟩

/-- What a fault recorded stays until reset (rule R239). -/
theorem step_keeps_fault_record {s t : State} (hst : step s = .next t) (hf : s.fault = true)
    (hreset : ∀ rest, s.schedule ≠ .reset :: rest) : t.cause = s.cause ∧ t.fcmd = s.fcmd := by
  cases step_effect hst with
  | syn _ e => exact e.cause_fcmd_eq
  | synTurn _ e => exact e.cause_fcmd_eq
  | discarded => exact ⟨rfl, rfl⟩
  | illegal _ hf' => exact absurd (hf'.symm.trans hf) Bool.false_ne_true
  | command _ hf' => exact absurd (hf'.symm.trans hf) Bool.false_ne_true
  | read => exact ⟨rfl, rfl⟩
  | reset hs => exact absurd hs (hreset _)
  | consume => exact hostConsume_cause_fcmd _

end Sys2Proof.Machine

namespace Sys2Proof.Claims
open Sys2Proof.Machine

/-- Settles O9: a faulting issue's verdict is fault entry, and no command meets the cause NONE. -/
theorem faultEntryIsPrecise : Obligations.FaultEntryIsPrecise := by
  intro s t w rest hf hs hst ht
  cases step_issue_verdict hf hs hst with
  | clean ht' => exact absurd (ht'.symm.trans ht) Bool.false_ne_true
  | faults hc =>
    refine ⟨?_, rfl⟩
    rintro rfl
    exact not_meets_none w _ hc

/-- Settles O10: the two verdicts, with the conditions read off the state before the turn was taken. -/
theorem smallestCauseCodeWins : Obligations.SmallestCauseCodeWins := by
  intro s t w rest hf hs hst
  simp only [← meets_taken_iff w rest s]
  cases step_issue_verdict hf hs hst with
  | clean ht h => simp [ht, h]
  | faults hc hmin => exact ⟨⟨fun _ => ⟨_, hc⟩, fun _ => rfl⟩, fun _ => ⟨hc, hmin⟩⟩

/-- Settles O11: both gates discard, the slots of a faulted block are empty, and no turn but reset writes FAULT,
CAUSE or FCMD. -/
theorem faultIsFatalUntilReset : Obligations.FaultIsFatalUntilReset := by
  refine ⟨fun i s hf => exec_discarded i hf, fun s w rest hf hs => step_issue_discarded hf hs,
    fun s rest h hf hs => ⟨popTurn rest s, ?_, rfl⟩,
    fun s n rest _ hs hn => ⟨readValue n s, ?_, ?_, ?_⟩,
    fun s t hf hst hreset => ⟨step_keeps_fault hst hf hreset, step_keeps_fault_record hst hf hreset⟩⟩
  · exact (step_turn hs).trans (synTurn_idle (h.cur_of_fault hf))
  · rw [step_read hs, hostRead, if_pos hn]
    rfl
  · rintro rfl; rfl
  · rintro rfl; rfl

end Sys2Proof.Claims
end

section
/-! SUPPORT. The step that takes the reset input (70_reset_and_hazards.md rules R260, R261). -/

namespace Sys2Proof.Machine

theorem State.reset_status : State.reset.status = 0 := by decide

/-- STATUS is a view of fields that all have their reset value, whatever the state was. -/
@[simp] theorem hostReset_status (s : State) : (hostReset s).status = 0 := State.reset_status
@[simp] theorem hostReset_pos (s : State) : (hostReset s).pos = 0 := rfl

theorem step_reset {s : State} {rest : List Turn} (hs : s.schedule = .reset :: rest) :
    step s = .next (hostReset (tick (popTurn rest s))) := step_turn hs

end Sys2Proof.Machine

namespace Sys2Proof.Claims
open Sys2Proof.Machine

/-- Settles O29: the step answers `hostReset`, field by field its reset value; that leaves CUR empty, so the turn
of SYN after it is an idle one (O44). -/
theorem resetClearsTheBlock : Obligations.ResetClearsTheBlock := by
  intro s rest hs
  refine ⟨_, step_reset hs, hostReset_status _, hostReset_resultValid _, hostReset_frameValid _, hostReset_fcmd _,
    hostReset_cur _, hostReset_next _, hostReset_out _, hostReset_pos _, ?cfg, ?schedule, fun later hlater => ?idle⟩
  case cfg => simp
  case schedule => simp
  case idle => exact idleSynthesizerDoesNothing.2 _ later (hostReset_cur _) (by simpa using hlater)

end Sys2Proof.Claims
end
